-- ==== Sys2Proof/Word.lean ====
section
/-! DEFINITION. The machine's words and register names (00_scope.md R9 to R13, 10_state.md R14).
`u(v)` of R10 is `BitVec.toNat v` and `s(v)` is `BitVec.toInt v`. -/

namespace Sys2Proof

/-- `bv32`: a register value or an immediate (R8 `XLEN` = 32, R13). -/
abbrev Word := BitVec 32

/-- A binary instruction word (R8 `ILEN` = 64, R51). -/
abbrev IWord := BitVec 64

/-- A program address as `pc`, `PROG_LEN`, `FAULT_PC`, `FAULT_ADDR` and a label's `ADDR` hold it
(R8 `PCW` = 32, R13). -/
abbrev Addr := BitVec 32

/-- A label id, the `IMM` field of `jnz` (R13, R54). -/
abbrev LabelId := BitVec 32

/-- A byte; only a serialised image has bytes (R39). -/
abbrev Byte := BitVec 8

/-- Text of the textual level, character by character. -/
abbrev Text := List Char

/-- The closed set of registers (R14), in the order of their numbers (R49). -/
inductive Reg where
  | eax | ebx | ecx | edx | esp | ebp | esi | edi
  deriving DecidableEq, Repr

end Sys2Proof
end

