-- ==== Sys2Proof/Machine/Flags.lean ====
section
/-! DEFINITION. The core has no flags (10_state.md R34): no instruction computes one. What other
machines test through a flag is tested on the register values themselves, here. -/

namespace Sys2Proof.Machine

/-- The condition of `jnz`: any non-zero value takes the jump (42_control_transfer.md R94). -/
def jumpTaken (v : Word) : Bool := decide (v.toInt ≠ 0)

/-- `div` faults when either operand is 0 (40_alu.md R84). -/
def divFaults (a b : Word) : Bool := decide (a.toInt = 0) || decide (b.toInt = 0)

end Sys2Proof.Machine
end

