-- ==== Sys2Proof/Config.lean ====
section
/-! DEFINITION. What an implementation fixes, and the values the spec leaves unspecified. -/

namespace Sys2Proof

/-- The implementation's two open parameters, arguments of the model (00_scope.md R8).
They stand in `State` (log entry 1), so a statement about every state holds for every value. -/
structure Params where
  /-- `PROG_MAX`: capacity of the program store in instructions. -/
  progMax : Nat
  /-- `LABEL_SLOTS`: number of label table entries. -/
  labelSlots : Nat
  deriving DecidableEq, Repr

/-- `PROG_MAX - 1`, a number the spec leaves open between 0 and 2^32 - 2 (R8). Log entry 1. -/
opaque Config.progMaxPred : Fin 4294967295

/-- `LABEL_SLOTS`, a number the spec leaves open between 0 and 2^32 (R8). Log entry 1. -/
opaque Config.labelSlots : Fin 4294967297

/-- The parameters of the core that `State.reset` is about. DESIGN CHOICE (log entry 1): opaque
constants, so nothing can be proved of them but the ranges R8 gives. -/
def Config.platform : Params :=
  ⟨Config.progMaxPred.val + 1, Config.labelSlots.val⟩

/-- What the entry at an address of the program store holds after the given power-on, as long as
nothing has loaded it: "entries unspecified" (10_state.md R36, 93 U7). A free value (log entry 2):
the first argument says which power-on, the second the address. -/
opaque Config.powerOnWord : Nat → Nat → IWord

end Sys2Proof
end

