-- ==== Sys2Proof/Syntax.lean ====
section
/-! DEFINITION. The typed instructions of the binary level, one constructor per row of the opcode
table (00_scope.md R2, 30_encoding.md R53, R55, R78). -/

namespace Sys2Proof

/-- A typed instruction as `Decode` returns it (R55). `l` is the label bit `L`, `ra` and `rb` the
first and second register operands (R52). -/
inductive Instr where
  /-- Add (40_alu.md R81). -/
  | add (l : Bool) (ra rb : Reg)
  /-- Subtract (R82). -/
  | sub (l : Bool) (ra rb : Reg)
  /-- Multiply (R83). -/
  | mul (l : Bool) (ra rb : Reg)
  /-- Divide (R84). -/
  | div (l : Bool) (ra rb : Reg)
  /-- Move (41_move_output.md R86); `imm` is `wrap32` of the literal (R54). -/
  | mov (l : Bool) (ra : Reg) (imm : Word)
  /-- Print (R87). -/
  | out (l : Bool) (ra : Reg)
  /-- JumpIfNotZero (42_control_transfer.md R94); `t` is the target's label id. -/
  | jnz (l : Bool) (ra : Reg) (t : LabelId)
  deriving DecidableEq, Repr

end Sys2Proof
end

