-- ==== Sys2Proof/WellFormed.lean ====
section
/-! DEFINITION. The checks on parameters, instructions and images. Every term of `Instr` is a legal
instruction of the core: its operand types admit nothing else. What can be ill formed is a set of
parameters, an instruction that no image builder produces for given parameters, and an image. -/

namespace Sys2Proof

/-- The ranges of the open parameters (00_scope.md R8). -/
def Params.wf (p : Params) : Bool :=
  decide (1 ≤ p.progMax) && decide (p.progMax ≤ 2 ^ 32 - 1) && decide (p.labelSlots ≤ 2 ^ 32)

/-- One label table entry (10_state.md R25). -/
structure LabelEntry where
  /-- `V`: the id is bound. -/
  v : Bool
  /-- `ADDR`: the bound address. -/
  addr : Addr
  deriving DecidableEq, Repr

/-- The binary form of a translated program (30_encoding.md R74). `PROG_LEN` is the number of words;
a label entry beyond the list is (`V` = 0, `ADDR` = 0). -/
structure Image where
  words : List IWord
  labels : List LabelEntry
  deriving DecidableEq, Repr

/-- An assembled instruction names only label ids below `LABEL_SLOTS` (R72, R74). A word loaded by
hand may name others: they are unbound (10_state.md R26). -/
def Instr.wf (p : Params) : Instr → Bool
  | .add _ _ _ => true
  | .sub _ _ _ => true
  | .mul _ _ _ => true
  | .div _ _ _ => true
  | .mov _ _ _ => true
  | .out _ _ => true
  | .jnz _ _ t => decide (t.toNat < p.labelSlots)

/-- An image fits its core and binds labels only to addresses of the program (R74, R97). -/
def Image.wf (p : Params) (img : Image) : Bool :=
  decide (img.words.length ≤ p.progMax) && decide (img.labels.length ≤ p.labelSlots) &&
    img.labels.all (fun e => !e.v || decide (e.addr.toNat < img.words.length))

end Sys2Proof
end

