-- ==== Sys2Proof/Decode.lean ====
section
/-! DEFINITION. The binary instruction word: register and opcode numbers, fields, decoder, encoder and
opcode map (30_encoding.md R49 to R56, R73, R78). -/

namespace Sys2Proof

/-- Why a word is Illegal (R55, R56): which of `Decode`'s checks refuses it. -/
inductive Illegal where
  /-- `OPC` = 7. -/
  | reservedOpcode
  /-- `RSV` is not 0. -/
  | reservedBits
  /-- `RB` is not 0 in `mov`, `out` or `jnz`. -/
  | unusedRb
  /-- `IMM` is not 0 in `add`, `sub`, `mul`, `div` or `out`. -/
  | unusedImm
  deriving DecidableEq, Repr

/-- What `Decode` answers (R55). -/
inductive Decoded where
  | instr (i : Instr)
  | illegal (why : Illegal)
  deriving DecidableEq, Repr

/-- The typed instruction, if the word is legal. -/
def Decoded.toOption : Decoded → Option Instr
  | .instr i => some i
  | .illegal _ => none

/-- Register numbers (R49). -/
def regNum : Reg → BitVec 3
  | .eax => 0#3
  | .ebx => 1#3
  | .ecx => 2#3
  | .edx => 3#3
  | .esp => 4#3
  | .ebp => 5#3
  | .esi => 6#3
  | .edi => 7#3

/-- The register a number names (R49). -/
def regOfNum (n : BitVec 3) : Reg :=
  match n.toNat with
  | 0 => .eax
  | 1 => .ebx
  | 2 => .ecx
  | 3 => .edx
  | 4 => .esp
  | 5 => .ebp
  | 6 => .esi
  | _ => .edi

/-- `OPC`, bits 2:0 (R52). -/
def opcField (w : IWord) : BitVec 3 := w.extractLsb' 0 3

/-- `L`, bit 3 (R52). -/
def labelField (w : IWord) : Bool := w.getLsbD 3

/-- `RA`, bits 6:4 (R52). -/
def raField (w : IWord) : BitVec 3 := w.extractLsb' 4 3

/-- `RB`, bits 9:7 (R52). -/
def rbField (w : IWord) : BitVec 3 := w.extractLsb' 7 3

/-- `RSV`, bits 31:10 (R52). -/
def rsvField (w : IWord) : BitVec 22 := w.extractLsb' 10 22

/-- `IMM`, bits 63:32 (R52). -/
def immField (w : IWord) : Word := w.extractLsb' 32 32

/-- The RR instruction of opcode 0, 1, 2 or 3 (R50). -/
def rrInstr (opc : BitVec 3) (l : Bool) (ra rb : Reg) : Instr :=
  match opc.toNat with
  | 0 => .add l ra rb
  | 1 => .sub l ra rb
  | 2 => .mul l ra rb
  | _ => .div l ra rb

/-- `Decode(w)`, total on all words (R55). -/
def decode (w : IWord) : Decoded :=
  let l := labelField w
  let ra := regOfNum (raField w)
  let rb := regOfNum (rbField w)
  let imm := immField w
  if opcField w = 7#3 then .illegal .reservedOpcode
  else if rsvField w ≠ 0#22 then .illegal .reservedBits
  else if (opcField w).toNat < 4 then
    if imm ≠ 0#32 then .illegal .unusedImm else .instr (rrInstr (opcField w) l ra rb)
  else if rbField w ≠ 0#3 then .illegal .unusedRb
  else if opcField w = 4#3 then .instr (.mov l ra imm)
  else if opcField w = 5#3 then
    if imm ≠ 0#32 then .illegal .unusedImm else .instr (.out l ra)
  else .instr (.jnz l ra imm)

/-- A word put together from its fields, `RSV` = 0 (R52). -/
def packWord (imm : Word) (rb ra : BitVec 3) (l : Bool) (opc : BitVec 3) : IWord :=
  imm ++ (0#22 ++ (rb ++ (ra ++ (BitVec.ofBool l ++ opc))))

/-- The word of an instruction (R73). -/
def encode : Instr → IWord
  | .add l ra rb => packWord 0#32 (regNum rb) (regNum ra) l 0#3
  | .sub l ra rb => packWord 0#32 (regNum rb) (regNum ra) l 1#3
  | .mul l ra rb => packWord 0#32 (regNum rb) (regNum ra) l 2#3
  | .div l ra rb => packWord 0#32 (regNum rb) (regNum ra) l 3#3
  | .mov l ra imm => packWord imm 0#3 (regNum ra) l 4#3
  | .out l ra => packWord 0#32 0#3 (regNum ra) l 5#3
  | .jnz l ra t => packWord t 0#3 (regNum ra) l 6#3

/-- Whether an instruction carries an attached label: its bit `L` (10_state.md R23). -/
def labelled : Instr → Bool
  | .add l _ _ => l
  | .sub l _ _ => l
  | .mul l _ _ => l
  | .div l _ _ => l
  | .mov l _ _ => l
  | .out l _ => l
  | .jnz l _ _ => l

/-- A row of the opcode map (R78). -/
structure OpRow where
  mnemonic : String
  pattern : IWord
  mask : IWord
  deriving DecidableEq, Repr

/-- The opcode map (R78). A word selects a row when `w & mask = match`. -/
def opcodeMap : List OpRow :=
  [⟨"add", 0x0000000000000000#64, 0xFFFFFFFFFFFFFC07#64⟩,
   ⟨"sub", 0x0000000000000001#64, 0xFFFFFFFFFFFFFC07#64⟩,
   ⟨"mul", 0x0000000000000002#64, 0xFFFFFFFFFFFFFC07#64⟩,
   ⟨"div", 0x0000000000000003#64, 0xFFFFFFFFFFFFFC07#64⟩,
   ⟨"mov", 0x0000000000000004#64, 0x00000000FFFFFF87#64⟩,
   ⟨"out", 0x0000000000000005#64, 0xFFFFFFFFFFFFFF87#64⟩,
   ⟨"jnz", 0x0000000000000006#64, 0x00000000FFFFFF87#64⟩]

/-- A word selects a row of the opcode map (R78). -/
def OpRow.selects (r : OpRow) (w : IWord) : Bool := decide (w &&& r.mask = r.pattern)

/-- The row an instruction belongs to, by its place in the opcode map (R50). -/
def rowIndex : Instr → Nat
  | .add _ _ _ => 0
  | .sub _ _ _ => 1
  | .mul _ _ _ => 2
  | .div _ _ _ => 3
  | .mov _ _ _ => 4
  | .out _ _ => 5
  | .jnz _ _ _ => 6

/-- The instruction the decoder reads from the bits `w`, bit 0 the least significant bit of the one
64-bit word every instruction is (R51); the bits above `nbits` are 0. -/
def decodeTableWord (nbits w : Nat) : Option Instr :=
  (decode (BitVec.ofNat 64 (w % 2 ^ nbits))).toOption

end Sys2Proof
end

