-- ==== Sys2Proof/Machine/State.lean ====
section
/-! DEFINITION. The machine's state, its reset values, and the reasons a step can stop
(10_state.md R14 to R36). -/

namespace Sys2Proof.Machine

/-- A sparse store of words or bindings: (address, content) pairs. The hardware has no byte-addressed
memory (20_memory.md R37, R38): the unit at an address is a whole instruction word or a whole label
binding. Canonical form: `Memory.wf`. -/
abbrev Memory (α : Type) := List (Nat × α)

/-- The canonical form: addresses strictly rising. -/
abbrev Memory.wf {α : Type} (m : Memory α) : Prop := m.Pairwise (fun x y => x.1 < y.1)

/-- The register file (R14). -/
structure RegFile where
  eax : Word
  ebx : Word
  ecx : Word
  edx : Word
  esp : Word
  ebp : Word
  esi : Word
  edi : Word
  deriving DecidableEq, Repr

/-- `STATUS.STATE` (R29). -/
inductive RunState where
  /-- No run since reset. -/
  | idle
  /-- A run is in progress. -/
  | run
  /-- The last run reached `pc = PROG_LEN`. -/
  | done
  /-- The last run stopped on a runtime fault. -/
  | fault
  deriving DecidableEq, Repr

/-- The runtime faults (60_exceptions.md R100). Taking one is a NEXT state (R101), so these are data
of the state and no `Fault` of the step. -/
inductive RunFault where
  | divideByZero
  | undefinedLabel
  | illegalInstruction
  | badTarget
  | jumpCycle
  deriving DecidableEq, Repr

/-- A record on the output port: a register and the value read from it (R32). -/
structure Record where
  reg : Reg
  val : Word
  deriving DecidableEq, Repr

/-- The whole state of the core. INVENTORY.md's '## State' lists every field with its rule. -/
structure State where
  /-- The eight registers (R14). -/
  regs : RegFile
  /-- The program counter (R19). -/
  pc : Addr
  /-- `HOPS`: jump targets entered by the chain of the current step (R33), a natural number that
  never wraps (log entry 17). -/
  hops : Nat
  /-- The program store; an unlisted entry has not been loaded since power-on (R21, R36). -/
  prog : Memory IWord
  /-- `PROG_LEN` (R22). -/
  progLen : Addr
  /-- The label table: the ids with `V` = 1, each with its `ADDR`; an unlisted id has `V` = 0, and its
  `ADDR` is never read (R25, R26, log entry 3). -/
  labels : Memory Addr
  /-- `STATUS.STATE` (R29). -/
  runState : RunState
  /-- `STATUS.CAUSE`; `none` is code 0 (R29, R100). -/
  cause : Option RunFault
  /-- `FAULT_PC` (R30). -/
  faultPc : Addr
  /-- `FAULT_ADDR` (R30). -/
  faultAddr : Addr
  /-- The records sent on the output port, oldest first (R32, log entry 6). -/
  output : List Record
  /-- `PROG_MAX` and `LABEL_SLOTS` (R8, log entry 1); nothing writes them. -/
  params : Params
  /-- The MODEL's own: which power-on this is, an index of free values only (log entry 2). -/
  powerOns : Nat
  deriving DecidableEq, Repr

/-- The model's step never stops with a fault: every runtime fault of the spec ends in a state the
spec describes (R101), and a core that is not running keeps its state (log entry 4). So there is no
constructor, and no one raises one. -/
inductive Fault where
  deriving DecidableEq, Repr

/-- Why the model would give no meaning. -/
inductive Refusal where
  /-- The instruction has no meaning in the model yet. Raised only by an arm of `exec` that names its
  instruction; safe, since the model then says nothing. No arm raises it. -/
  | notModelled (mnemonic : String)
  deriving DecidableEq, Repr

/-- `clear()` of the register file: all 8 registers 0 (R17, R18). -/
def RegFile.zero : RegFile := ⟨0#32, 0#32, 0#32, 0#32, 0#32, 0#32, 0#32, 0#32⟩

/-- Power-on reset (R36, 70_reset_and_hazards.md R112) of a core with parameters `p`; `n` says which
power-on it is. -/
def State.resetFor (p : Params) (n : Nat) : State where
  regs := RegFile.zero
  pc := 0#32
  hops := 0
  prog := []
  progLen := 0#32
  labels := []
  runState := .idle
  cause := none
  faultPc := 0#32
  faultAddr := 0#32
  output := []
  params := p
  powerOns := n

/-- The machine right after power-on reset (R112), its parameters the opaque ones of `Config`. -/
def State.reset : State := State.resetFor Config.platform 0

end Sys2Proof.Machine
end

