-- ==== Sys2Proof/Machine/Ops.lean ====
section
/-! DEFINITION. The named operations over registers, program store, label table, output port and
status that every meaning is written in (00_scope.md R12), and taking a runtime fault
(60_exceptions.md R101). -/

namespace Sys2Proof.Machine

/-! ### Sparse stores -/

/-- The content listed at an address. -/
def Memory.find {α : Type} : Memory α → Nat → Option α
  | [], _ => none
  | (k, v) :: m, a => if k = a then some v else Memory.find m a

/-- Write the content at an address, keeping the canonical form. -/
def Memory.put {α : Type} : Memory α → Nat → α → Memory α
  | [], a, v => [(a, v)]
  | (k, w) :: m, a, v =>
    if a < k then (a, v) :: (k, w) :: m
    else if a = k then (a, v) :: m
    else (k, w) :: Memory.put m a v

/-- List nothing at an address any more. -/
def Memory.erase {α : Type} : Memory α → Nat → Memory α
  | [], _ => []
  | (k, w) :: m, a => if k = a then m else (k, w) :: Memory.erase m a

/-! ### Registers -/

/-- `get(register)` of the register file (10_state.md R17). -/
def RegFile.get (f : RegFile) : Reg → Word
  | .eax => f.eax
  | .ebx => f.ebx
  | .ecx => f.ecx
  | .edx => f.edx
  | .esp => f.esp
  | .ebp => f.ebp
  | .esi => f.esi
  | .edi => f.edi

/-- `set(register, value)` of the register file (R17). -/
def RegFile.set (f : RegFile) (r : Reg) (v : Word) : RegFile :=
  match r with
  | .eax => { f with eax := v }
  | .ebx => { f with ebx := v }
  | .ecx => { f with ecx := v }
  | .edx => { f with edx := v }
  | .esp => { f with esp := v }
  | .ebp => { f with ebp := v }
  | .esi => { f with esi := v }
  | .edi => { f with edi := v }

/-- `x[i]` (00_scope.md R12). -/
def State.getReg (s : State) (r : Reg) : Word := s.regs.get r

/-- `x[i] <- v` (R12). -/
def State.setReg (s : State) (r : Reg) (v : Word) : State := { s with regs := s.regs.set r v }

/-- `clear()` (10_state.md R17). -/
def State.clearRegs (s : State) : State := { s with regs := RegFile.zero }

/-! ### Program store and label table -/

/-- The word in program store entry `a` (R21): the word last loaded, or, where nothing has been loaded
since power-on, a free value (R36, log entry 2). -/
def State.wordAt (s : State) (a : Nat) : IWord :=
  (s.prog.find a).getD (Config.powerOnWord s.powerOns a)

/-- `Decode(IFetch(a))` (R12, 42_control_transfer.md R90, R94). -/
def State.instrAt (s : State) (a : Addr) : Decoded := decode (s.wordAt a.toNat)

/-- Load a word into the program store (60_exceptions.md R108). -/
def State.putWord (s : State) (a : Nat) (w : IWord) : State := { s with prog := s.prog.put a w }

/-- `LabelLookup(t)` at the binary level: `some a` is `Bound(a)`, `none` is `Unbound` (R26). -/
def State.labelLookup (s : State) (t : LabelId) : Option Addr :=
  if t.toNat < s.params.labelSlots then s.labels.find t.toNat else none

/-- Load a label table entry (R25, R108). -/
def State.putLabel (s : State) (id : Nat) (e : LabelEntry) : State :=
  { s with labels := if e.v then s.labels.put id e.addr else s.labels.erase id }

/-! ### Output port -/

/-- `Emit(i, v)` (R12, R32). -/
def State.emit (s : State) (r : Reg) (v : Word) : State :=
  { s with output := s.output ++ [⟨r, v⟩] }

/-! ### Hop counter and program counter -/

/-- `HOPS <- 0` (R33, R90). -/
def State.clearHops (s : State) : State := { s with hops := 0 }

/-- `HOPS <- HOPS + 1` (R94). DESIGN CHOICE (log entry 17): R13 keeps hop counts below 2^32, and R94 with R96
lets `HOPS` reach `PROG_LEN` + 1, which is 2^32 at the greatest `PROG_LEN`; the count here is a natural
number that never wraps, so JumpCycle is raised there too. -/
def State.countHop (s : State) : State := { s with hops := s.hops + 1 }

/-- `pc <- pc + 1` (R90). -/
def State.advance (s : State) : State := { s with pc := s.pc + 1#32 }

/-! ### Faults -/

/-- Fault entry (60_exceptions.md R101): the step's outer instruction is at `pc`, the instruction that
raised is at `q`. The pc stays, and no handler runs. -/
def State.enterFault (s : State) (c : RunFault) (q : Addr) : State :=
  { s with runState := .fault, cause := some c, faultPc := s.pc, faultAddr := q }

/-- The codes `STATUS.CAUSE` reports (R100). -/
def causeCode : Option RunFault → BitVec 4
  | none => 0#4
  | some .divideByZero => 1#4
  | some .undefinedLabel => 2#4
  | some .illegalInstruction => 3#4
  | some .badTarget => 4#4
  | some .jumpCycle => 5#4

/-- What executing an instruction leads to: it completes, or it raises a runtime fault at an address,
in the state its writes before the raise have left (R12, R92). -/
inductive Effect where
  | done (s : State)
  | raised (c : RunFault) (q : Addr) (s : State)
  deriving DecidableEq, Repr

/-- An outer instruction's effect as the outcome of its meaning: a raise takes the fault (R101). -/
def settle : Effect → Host.Outcome State Fault Refusal
  | .done s => .next s
  | .raised c q s => .next (s.enterFault c q)

/-- There is no return from a fault (60_exceptions.md R104): the only way on is the start of a new
run (70_reset_and_hazards.md R113), in R113's order. -/
def State.startRun (s : State) : State :=
  { s.clearRegs with
    pc := 0#32, cause := none, faultPc := 0#32, faultAddr := 0#32, hops := 0, runState := .run }

/-- Power-on reset of a core that has run before (R112). The output sink is outside the core and keeps
what it has (R36); what unspecified entries hold is free anew (log entry 2). -/
def State.powerOn (s : State) : State :=
  { State.resetFor s.params (s.powerOns + 1) with output := s.output }

end Sys2Proof.Machine
end

