-- ==== Sys2Proof/Machine/Operands.lean ====
section
/-! DEFINITION. The operand forms (30_encoding.md R53): RR reads both registers before it writes, RI
writes an immediate, R reads one register; the RL form of `jnz` is in Machine/Control.lean. -/

namespace Sys2Proof.Machine

/-- Format RR with a total operation (40_alu.md R79): both operands are read, then `ra` is written. -/
def State.writeRR (f : Word → Word → Word) (ra rb : Reg) (s : State) : State :=
  s.setReg ra (f (s.getReg ra) (s.getReg rb))

/-- Format RI (30_encoding.md R54): the immediate is used as it stands. -/
def State.writeRI (ra : Reg) (imm : Word) (s : State) : State := s.setReg ra imm

/-- Format R (41_move_output.md R87): the register and the value read from it are sent. -/
def State.sendR (ra : Reg) (s : State) : State := s.emit ra (s.getReg ra)

end Sys2Proof.Machine
end

