-- ==== Sys2Proof/Machine/Alu.lean ====
section
/-! DEFINITION. The ALU family: `add`, `sub`, `mul`, `div` (40_alu.md R79 to R85). -/

namespace Sys2Proof.Machine

/-- `wrap32(n)`: the word equal to `n` modulo 2^32 (00_scope.md R10). -/
def wrap32 (n : Int) : Word := BitVec.ofInt 32 n

/-- `tdiv(a, b)`: the quotient rounded toward zero (R11). -/
def tdiv (a b : Int) : Int := a.sign * b.sign * ((a.natAbs / b.natAbs : Nat) : Int)

/-- The sum (R81). -/
def aluAdd (a b : Word) : Word := wrap32 (a.toInt + b.toInt)

/-- The difference (R82). -/
def aluSub (a b : Word) : Word := wrap32 (a.toInt - b.toInt)

/-- The low half of the exact product (R83). -/
def aluMul (a b : Word) : Word := wrap32 (a.toInt * b.toInt)

/-- The quotient (R84). -/
def aluDiv (a b : Word) : Word := wrap32 (tdiv a.toInt b.toInt)

/-- Exec of `add` (R81). -/
def addEffect (ra rb : Reg) (s : State) : Effect := .done (s.writeRR aluAdd ra rb)

/-- Exec of `sub` (R82). -/
def subEffect (ra rb : Reg) (s : State) : Effect := .done (s.writeRR aluSub ra rb)

/-- Exec of `mul` (R83). -/
def mulEffect (ra rb : Reg) (s : State) : Effect := .done (s.writeRR aluMul ra rb)

/-- Exec of the `div` at address `a` (R84): the check comes before any write. -/
def divEffect (ra rb : Reg) (a : Addr) (s : State) : Effect :=
  if divFaults (s.getReg ra) (s.getReg rb) then .raised .divideByZero a s
  else .done (s.writeRR aluDiv ra rb)

/-- `add` as outer instruction (R81, 42_control_transfer.md R92). -/
def execAdd (ra rb : Reg) (s : State) : Host.Outcome State Fault Refusal :=
  settle (addEffect ra rb s)

/-- `sub` as outer instruction (R82, R92). -/
def execSub (ra rb : Reg) (s : State) : Host.Outcome State Fault Refusal :=
  settle (subEffect ra rb s)

/-- `mul` as outer instruction (R83, R92). -/
def execMul (ra rb : Reg) (s : State) : Host.Outcome State Fault Refusal :=
  settle (mulEffect ra rb s)

/-- `div` as outer instruction, at `pc` (R84, R92). -/
def execDiv (ra rb : Reg) (s : State) : Host.Outcome State Fault Refusal :=
  settle (divEffect ra rb s.pc s)

end Sys2Proof.Machine
end

