-- ==== Sys2Proof/Machine/Move.lean ====
section
/-! DEFINITION. The move and output family: `mov`, `out` (41_move_output.md R86, R87). -/

namespace Sys2Proof.Machine

/-- Exec of `mov` (R86). -/
def movEffect (ra : Reg) (imm : Word) (s : State) : Effect := .done (s.writeRI ra imm)

/-- Exec of `out` (R87). -/
def outEffect (ra : Reg) (s : State) : Effect := .done (s.sendR ra)

/-- `mov` as outer instruction (R86, 42_control_transfer.md R92). -/
def execMov (ra : Reg) (imm : Word) (s : State) : Host.Outcome State Fault Refusal :=
  settle (movEffect ra imm s)

/-- `out` as outer instruction (R87, R92). -/
def execOut (ra : Reg) (s : State) : Host.Outcome State Fault Refusal :=
  settle (outEffect ra s)

end Sys2Proof.Machine
end

