-- ==== Sys2Proof/Machine/Control.lean ====
section
/-! DEFINITION. The control-transfer family: `jnz`, nested execution and chains
(42_control_transfer.md R92, R94 to R96). -/

namespace Sys2Proof.Machine

/-- What one `jnz` decides before its target executes (R94). -/
inductive Hop where
  /-- The register is 0: no lookup, no effect. -/
  | notTaken
  /-- One of the checks raises, naming the address it names. -/
  | raises (c : RunFault) (q : Addr) (s : State)
  /-- The target at `d` is entered: `j` executes there, nested. -/
  | enters (d : Addr) (j : Instr) (s : State)
  deriving DecidableEq, Repr

/-- `JNZ(ra, t, a)` up to the nested execution, its checks in R94's order (R103). -/
def jnzHop (ra : Reg) (t : LabelId) (a : Addr) (s : State) : Hop :=
  if jumpTaken (s.getReg ra) then
    match s.labelLookup t with
    | none => .raises .undefinedLabel a s
    | some d =>
      if s.progLen ≤ d then .raises .badTarget a s
      else if s.progLen.toNat < s.countHop.hops then .raises .jumpCycle a s.countHop
      else
        match s.instrAt d with
        | .illegal _ => .raises .illegalInstruction d s.countHop
        | .instr j => .enters d j s.countHop
  else .notTaken

/-- `Exec(i, a)` (R92), nested executions included (R95). `room` bounds how many further targets the
chain may enter; `PROG_LEN` of them are enough, since `HOPS` stops the chain there (R96,
`execAt_room` in Laws/Control.lean), so the `0` branch is never reached from a step. -/
def execAt (room : Nat) (i : Instr) (a : Addr) (s : State) : Effect :=
  match i with
  | .add _ ra rb => addEffect ra rb s
  | .sub _ ra rb => subEffect ra rb s
  | .mul _ ra rb => mulEffect ra rb s
  | .div _ ra rb => divEffect ra rb a s
  | .mov _ ra imm => movEffect ra imm s
  | .out _ ra => outEffect ra s
  | .jnz _ ra t =>
    match jnzHop ra t a s with
    | .notTaken => .done s
    | .raises c q s' => .raised c q s'
    | .enters d j s' =>
      match room with
      | 0 => .raised .jumpCycle a s'
      | n + 1 => execAt n j d s'

/-- `jnz` as outer instruction, at `pc` (R94). -/
def execJnz (l : Bool) (ra : Reg) (t : LabelId) (s : State) : Host.Outcome State Fault Refusal :=
  settle (execAt s.progLen.toNat (.jnz l ra t) s.pc s)

end Sys2Proof.Machine
end

