-- ==== Sys2Proof/Machine/Dispatch.lean ====
section
/-! DEFINITION. One arm per instruction, each one call of its meaning. -/

namespace Sys2Proof.Machine

/-- An instruction executed as the step's outer instruction, at `pc` (42_control_transfer.md R92). The
skip of labelled instructions and the advance of `pc` are the step's (R90, R91). -/
def exec (i : Instr) (s : State) : Host.Outcome State Fault Refusal :=
  match i with
  | .add _ ra rb => Sys2Proof.Machine.execAdd ra rb s
  | .sub _ ra rb => Sys2Proof.Machine.execSub ra rb s
  | .mul _ ra rb => Sys2Proof.Machine.execMul ra rb s
  | .div _ ra rb => Sys2Proof.Machine.execDiv ra rb s
  | .mov _ ra imm => Sys2Proof.Machine.execMov ra imm s
  | .out _ ra => Sys2Proof.Machine.execOut ra s
  | .jnz l ra t => Sys2Proof.Machine.execJnz l ra t s

end Sys2Proof.Machine
end

