-- ==== Sys2Proof/Machine/Sequencer.lean ====
section
/-! DEFINITION. The parts of the main loop around the execution of an instruction
(42_control_transfer.md R90, R91, R93). -/

namespace Sys2Proof.Machine

/-- What a step is about to do (R90). -/
inductive Front where
  /-- `STATE` is not RUN: no step takes place (R89, R93). -/
  | waits
  /-- `pc` has reached `PROG_LEN` (R93). -/
  | ends
  /-- The word at `pc` is Illegal, whatever its label bit (30_encoding.md R56). -/
  | illegal
  /-- The instruction at `pc` is labelled (R91). -/
  | skips
  /-- The instruction at `pc` executes. -/
  | runs (i : Instr)
  deriving DecidableEq, Repr

/-- The tests of a step up to `Exec`, in R90's order. -/
def front (s : State) : Front :=
  if s.runState = .run then
    if s.progLen ≤ s.pc then .ends
    else
      match s.instrAt s.pc with
      | .illegal _ => .illegal
      | .instr i => if labelled i then .skips else .runs i
  else .waits

/-- `STATE <- DONE`, `pc` staying where it is (R93). -/
def State.endRun (s : State) : State := { s with runState := .done }

/-- After `Exec`: `pc` advances unless the instruction raised (R90, R101), and `HOPS` survives no step
(R33). -/
def State.retire (t : State) : State :=
  if t.runState = .run then t.advance.clearHops else t.clearHops

/-- The address at which `withFetchWord` places a word: `pc`, unless `pc` is 2^32 - 1, which no program
length makes a program address (R22); then address 0. -/
def fetchSlot (pc : Addr) : Addr := if pc = 0xFFFFFFFF#32 then 0#32 else pc

/-- A word placed where the next step fetches, and a run in progress: what a host's load and start do
for one word (log entry 8). -/
def State.placeWord (s : State) (w : IWord) : State :=
  let a := fetchSlot s.pc
  { s with
    prog := s.prog.put a.toNat w, pc := a, runState := .run,
    progLen := if s.progLen ≤ a then a + 1#32 else s.progLen }

end Sys2Proof.Machine
end

