-- ==== Sys2Proof/Machine/Step.lean ====
section
/-! DEFINITION. One iteration of the main loop (42_control_transfer.md R90). -/

namespace Sys2Proof.Machine

/-- `Step()` (R90). With `STATE` other than RUN the state stays as it is: "no step follows until the
host starts a new run" (R93, log entry 4). -/
def step (s : State) : Host.Outcome State Fault Refusal :=
  match front s with
  | .waits => .next s
  | .ends => .next s.endRun
  | .illegal => .next (s.enterFault .illegalInstruction s.pc)
  | .skips => .next s.advance
  | .runs i =>
    match exec i s.clearHops with
    | .next t => .next t.retire
    | .fault r => .fault r
    | .refused r => .refused r

/-- `s` with the instruction word placed where the next step fetches, in a run in progress; the bits
above `nbits` are 0. Log entry 8. -/
def State.withFetchWord (s : State) (nbits w : Nat) : State :=
  s.placeWord (BitVec.ofNat 64 (w % 2 ^ nbits))

end Sys2Proof.Machine
end

