-- ==== Sys2Proof/Machine/HostPort.lean ====
section
/-! DEFINITION. The host's interface: the load interface and the host register window
(10_state.md R27 to R30, 60_exceptions.md R108). The host moves between steps; none of its moves is
part of `step`. -/

namespace Sys2Proof.Machine

/-- One interaction of the host with the core (R108). `write` and `read` go to the host register window
at a byte offset (R27); a start is a write of `CTRL`, a length a write of `PROG_LEN`. -/
inductive HostMove where
  | loadWord (a : Nat) (w : IWord)
  | loadLabel (id : Nat) (e : LabelEntry)
  | write (off : Nat) (v : Word)
  | read (off : Nat)
  deriving DecidableEq, Repr

/-- Why the model gives the host no such move (log entry 5). -/
inductive HostRefusal where
  /-- The access is allowed only while `STATE` is not RUN (R27, R46, R108). -/
  | duringRun
  /-- No such program store or label table entry (R21, R25). -/
  | noSuchEntry
  /-- An offset that starts no register of the window and is not reserved (R27). -/
  | noSuchRegister
  deriving DecidableEq, Repr

/-- What a move of the host leads to: the core's new state and what a read returns. -/
inductive HostResult where
  | done (s : State) (reply : Option Word)
  | refused (r : HostRefusal)
  deriving DecidableEq, Repr

/-- The registers of the host window (R27). -/
inductive HostReg where
  | ctrl
  | status
  | progLen
  | faultPc
  | faultAddr
  | reg (r : Reg)
  | reserved
  deriving DecidableEq, Repr

/-- The register at a byte offset (R27). -/
def hostReg (off : Nat) : Option HostReg :=
  if 0x3C < off then some .reserved
  else if 0x14 ≤ off ∧ off ≤ 0x1C then some .reserved
  else if off % 4 ≠ 0 then none
  else if off = 0x00 then some .ctrl
  else if off = 0x04 then some .status
  else if off = 0x08 then some .progLen
  else if off = 0x0C then some .faultPc
  else if off = 0x10 then some .faultAddr
  else if 0x20 ≤ off then some (.reg (regOfNum (BitVec.ofNat 3 ((off - 0x20) / 4))))
  else some .reserved

/-- The values of `STATUS.STATE` (R29). -/
def stateCode : RunState → BitVec 2
  | .idle => 0#2
  | .run => 1#2
  | .done => 2#2
  | .fault => 3#2

/-- `STATUS` (R29): `STATE` in bits 1:0, `CAUSE` in bits 7:4, the other bits 0. -/
def State.status (s : State) : Word :=
  0#24 ++ (causeCode s.cause ++ (0#2 ++ stateCode s.runState))

/-- The start of a run on a write of `CTRL` (10_state.md R28): bit 0 set and no run in progress. -/
def State.writeCtrl (s : State) (v : Word) : State :=
  if v.getLsbD 0 ∧ s.runState ≠ .run then s.startRun else s

/-- Setting the length (R108): ignored above `PROG_MAX`. -/
def State.writeLen (s : State) (n : Word) : State :=
  if n.toNat ≤ s.params.progMax then { s with progLen := n } else s

/-- A host write of the window (R27). Read-only and reserved registers keep their value (log entry 7
for the read-only ones). -/
def hostWrite (off : Nat) (v : Word) (s : State) : HostResult :=
  match hostReg off with
  | none => .refused .noSuchRegister
  | some .ctrl => .done (s.writeCtrl v) none
  | some .progLen => if s.runState = .run then .refused .duringRun else .done (s.writeLen v) none
  | some .status => .done s none
  | some .faultPc => .done s none
  | some .faultAddr => .done s none
  | some (.reg _) => .done s none
  | some .reserved => .done s none

/-- A host read of the window (R27). No read has a side effect (20_memory.md R41). -/
def hostRead (off : Nat) (s : State) : HostResult :=
  match hostReg off with
  | none => .refused .noSuchRegister
  | some .ctrl => .done s (some 0#32)
  | some .status => .done s (some s.status)
  | some .progLen => .done s (some s.progLen)
  | some .faultPc => .done s (some s.faultPc)
  | some .faultAddr => .done s (some s.faultAddr)
  | some (.reg r) => if s.runState = .run then .refused .duringRun else .done s (some (s.getReg r))
  | some .reserved => .done s (some 0#32)

/-- The load interface for a program word (R108). -/
def hostLoadWord (a : Nat) (w : IWord) (s : State) : HostResult :=
  if s.runState = .run then .refused .duringRun
  else if a < s.params.progMax then .done (s.putWord a w) none
  else .refused .noSuchEntry

/-- The load interface for a label table entry (R108). -/
def hostLoadLabel (id : Nat) (e : LabelEntry) (s : State) : HostResult :=
  if s.runState = .run then .refused .duringRun
  else if id < s.params.labelSlots then .done (s.putLabel id e) none
  else .refused .noSuchEntry

/-- A move of the host (R108). -/
def hostMove (m : HostMove) (s : State) : HostResult :=
  match m with
  | .loadWord a w => hostLoadWord a w s
  | .loadLabel id e => hostLoadLabel id e s
  | .write off v => hostWrite off v s
  | .read off => hostRead off s

/-- The moves of the host one after another, each of them one the model gives it. -/
def hostMoves : List HostMove → State → Option State
  | [], s => some s
  | m :: ms, s =>
    match hostMove m s with
    | .done s' _ => hostMoves ms s'
    | .refused _ => none

end Sys2Proof.Machine
end

