-- ==== Sys2Proof/Machine/Text.lean ====
section
/-! DEFINITION. The textual level (30_encoding.md R57 to R60, R75, R76, 41_move_output.md R88): lines,
tokens, names, literals, typed instructions as the translator makes them, and their rendering. -/

namespace Sys2Proof.Machine

/-- The seven mnemonics (00_scope.md R2). -/
inductive Mnemonic where
  | add | sub | mul | div | mov | out | jnz
  deriving DecidableEq, Repr

/-- A variant with its operands at the textual level (00_scope.md glossary, R53). -/
inductive TextOp where
  | add (ra rb : Reg)
  | sub (ra rb : Reg)
  | mul (ra rb : Reg)
  | div (ra rb : Reg)
  | mov (ra : Reg) (n : Int)
  | out (ra : Reg)
  | jnz (ra : Reg) (target : Text)
  deriving DecidableEq, Repr

/-- A typed instruction with its optional attached label name (10_state.md R21, R23). -/
structure TextInstr where
  label : Option Text
  op : TextOp
  deriving DecidableEq, Repr

/-- The name of a mnemonic (30_encoding.md R57). -/
def mnemonicText : Mnemonic → Text
  | .add => "add".toList
  | .sub => "sub".toList
  | .mul => "mul".toList
  | .div => "div".toList
  | .mov => "mov".toList
  | .out => "out".toList
  | .jnz => "jnz".toList

/-- The closed mnemonic set, in the order of the opcode numbers (R50, R65). -/
def allMnemonics : List Mnemonic := [.add, .sub, .mul, .div, .mov, .out, .jnz]

/-- The name of a register (R49). -/
def regText : Reg → Text
  | .eax => "EAX".toList
  | .ebx => "EBX".toList
  | .ecx => "ECX".toList
  | .edx => "EDX".toList
  | .esp => "ESP".toList
  | .ebp => "EBP".toList
  | .esi => "ESI".toList
  | .edi => "EDI".toList

/-- The eight registers in the order of their numbers (R49). -/
def allRegs : List Reg := [.eax, .ebx, .ecx, .edx, .esp, .ebp, .esi, .edi]

/-- The mnemonic a token names, matched exactly and case-sensitively (R58). -/
def readMnemonic (tok : Text) : Option Mnemonic := allMnemonics.find? (fun m => mnemonicText m = tok)

/-- The register a token names (R58). -/
def readReg (tok : Text) : Option Reg := allRegs.find? (fun r => regText r = tok)

/-! ### Lines and tokens -/

/-- The lines of a text: split at each line feed; text after the last one is the last line (R58). -/
def splitLines : Text → List Text
  | [] => []
  | c :: cs =>
    if c.toNat = 0x0A then [] :: splitLines cs
    else
      match splitLines cs with
      | [] => [[c]]
      | ln :: lns => (c :: ln) :: lns

/-- Whitespace: space, tab, line feed, vertical tab, form feed, carriage return (R58). -/
def isSpace (c : Char) : Bool := decide (c.toNat = 0x20) || (decide (0x09 ≤ c.toNat) && decide (c.toNat ≤ 0x0D))

/-- The tokens of a line whose current token has begun with `cur`. -/
def tokensFrom (cur : Text) : Text → List Text
  | [] => if cur = [] then [] else [cur]
  | c :: cs =>
    if isSpace c then (if cur = [] then tokensFrom [] cs else cur :: tokensFrom [] cs)
    else tokensFrom (cur ++ [c]) cs

/-- A line's tokens: its maximal runs of characters other than whitespace (R58). -/
def tokens (ln : Text) : List Text := tokensFrom [] ln

/-! ### Integer literals -/

/-- An ASCII decimal digit's value (R59). -/
def digitVal (c : Char) : Option Nat :=
  if 0x30 ≤ c.toNat ∧ c.toNat ≤ 0x39 then some (c.toNat - 0x30) else none

/-- The digits of a literal, most significant first, after those that gave `acc`. -/
def readDigits : Nat → Text → Option Nat
  | acc, [] => some acc
  | acc, c :: cs =>
    match digitVal c with
    | none => none
    | some d => readDigits (acc * 10 + d) cs

/-- One or more digits (R59). -/
def readNat (ds : Text) : Option Nat := if ds = [] then none else readDigits 0 ds

/-- A literal's value before the range check (R59). -/
def readSigned : Text → Option Int
  | [] => none
  | c :: ds =>
    if c = '+' then (readNat ds).map (fun n => (n : Int))
    else if c = '-' then (readNat ds).map (fun n => -(n : Int))
    else (readNat (c :: ds)).map (fun n => (n : Int))

/-- The range of a literal: -2^31 .. 2^31 - 1 (R59). -/
def inRange (n : Int) : Bool := decide (-2147483648 ≤ n) && decide (n ≤ 2147483647)

/-- A signed integer literal (R59). -/
def readLiteral (tok : Text) : Option Int :=
  match readSigned tok with
  | none => none
  | some n => if inRange n then some n else none

/-! ### Rendering -/

/-- The ASCII digit of a value below 10. -/
def digitChar (d : Nat) : Char := Char.ofNat (0x30 + d)

/-- The decimal digits of `n` before the text `acc`; `fuel` above `n` is enough. -/
def decimalDigits : Nat → Nat → Text → Text
  | 0, _, acc => acc
  | fuel + 1, n, acc =>
    if n < 10 then digitChar n :: acc else decimalDigits fuel (n / 10) (digitChar (n % 10) :: acc)

/-- The decimal form without sign and leading zeros (41_move_output.md R88). -/
def decimalNat (n : Nat) : Text := decimalDigits (n + 1) n []

/-- The decimal form: a leading `-` for a negative value, no sign otherwise, no leading zeros
(R75, R88). -/
def decimal (n : Int) : Text := if n < 0 then '-' :: decimalNat n.natAbs else decimalNat n.natAbs

/-- The opcode and operand tokens of an instruction's canonical rendering (R75). -/
def opTokens : TextOp → List Text
  | .add ra rb => [mnemonicText .add, regText ra, regText rb]
  | .sub ra rb => [mnemonicText .sub, regText ra, regText rb]
  | .mul ra rb => [mnemonicText .mul, regText ra, regText rb]
  | .div ra rb => [mnemonicText .div, regText ra, regText rb]
  | .mov ra n => [mnemonicText .mov, regText ra, decimal n]
  | .out ra => [mnemonicText .out, regText ra]
  | .jnz ra t => [mnemonicText .jnz, regText ra, t]

/-- Tokens with one space between them (R75). -/
def joinTokens : List Text → Text
  | [] => []
  | [t] => t
  | t :: u :: ts => t ++ ' ' :: joinTokens (u :: ts)

/-- The rendering of the operation alone. -/
def renderOp (op : TextOp) : Text := joinTokens (opTokens op)

/-- The canonical rendering: the label name and `: ` if one is attached, then opcode and operands, one
space apart (R75). -/
def render (i : TextInstr) : Text :=
  match i.label with
  | none => renderOp i.op
  | some name => name ++ ':' :: ' ' :: renderOp i.op

/-- Operand-equal: same variant and equal operands; the label takes no part (R76). -/
def operandEqual (i j : TextInstr) : Bool := decide (i.op = j.op)

/-- A label name: a non-empty string of non-whitespace characters (R60). -/
def isName (name : Text) : Bool := !name.isEmpty && name.all (fun c => !isSpace c)

/-- The operands a source text can give: a literal in range (R59), a target that is a name (R60). -/
def TextOp.wf : TextOp → Bool
  | .mov _ n => inRange n
  | .jnz _ t => isName t
  | _ => true

/-- The text line a record stands for: register name, space, `-`, space, value (R88). -/
def recordLine (r : Record) : Text := regText r.reg ++ " - ".toList ++ decimal r.val.toInt

end Sys2Proof.Machine
end

