-- ==== Sys2Proof/Machine/Translator.lean ====
section
/-! DEFINITION. The translator, the hardware's assembler (30_encoding.md R61 to R71), with the label
table of the textual level (10_state.md R24) and the assembly-time errors (60_exceptions.md R105). -/

namespace Sys2Proof.Machine

/-- The assembly-time errors (R105). -/
inductive AsmError where
  | unknownOpcode
  | malformedLine
  | invalidRegisterName
  | invalidIntegerLiteral
  | duplicateLabel
  | programTooLong
  | tooManyLabels
  deriving DecidableEq, Repr

/-- The codes of the assembly-time errors (R105). -/
def asmCode : AsmError → Nat
  | .unknownOpcode => 1
  | .malformedLine => 2
  | .invalidRegisterName => 3
  | .invalidIntegerLiteral => 4
  | .duplicateLabel => 5
  | .programTooLong => 6
  | .tooManyLabels => 7

/-! ### The label table of names -/

/-- A finite partial map from label names to program addresses (10_state.md R24). -/
abbrev LabelTable := List (Text × Nat)

/-- `getAddress(name)`; `none` is UndefinedLabel (R24). -/
def LabelTable.getAddress : LabelTable → Text → Option Nat
  | [], _ => none
  | (n, a) :: t, name => if n = name then some a else LabelTable.getAddress t name

/-- `addLabel(name, address)`; `none` is DuplicateLabel (R24). -/
def LabelTable.addLabel (t : LabelTable) (name : Text) (a : Nat) : Option LabelTable :=
  match t.getAddress name with
  | some _ => none
  | none => some (t ++ [(name, a)])

/-- `reset()` (R24). -/
def LabelTable.reset : LabelTable := []

/-! ### One line -/

/-- A line's parts after its checks: the attached label and the operation. -/
structure LineParts where
  label : Option Text
  op : TextOp
  deriving DecidableEq, Repr

/-- What reading a line gives: parts, or the first check that fails (R70). -/
inductive LineResult where
  | parts (p : LineParts)
  | error (e : AsmError)
  deriving DecidableEq, Repr

/-- What reading an opcode and its operands gives (R70). -/
inductive OpResult where
  | op (o : TextOp)
  | error (e : AsmError)
  deriving DecidableEq, Repr

/-- Two register operands, checked left to right (R67). -/
def readRR (mk : Reg → Reg → TextOp) (x y : Text) : OpResult :=
  match readReg x with
  | none => .error .invalidRegisterName
  | some ra =>
    match readReg y with
    | none => .error .invalidRegisterName
    | some rb => .op (mk ra rb)

/-- A register and a literal, checked left to right (R67). -/
def readRI (mk : Reg → Int → TextOp) (x y : Text) : OpResult :=
  match readReg x with
  | none => .error .invalidRegisterName
  | some ra =>
    match readLiteral y with
    | none => .error .invalidIntegerLiteral
    | some n => .op (mk ra n)

/-- One register (R67). -/
def readR (mk : Reg → TextOp) (x : Text) : OpResult :=
  match readReg x with
  | none => .error .invalidRegisterName
  | some ra => .op (mk ra)

/-- A register and a label name, the name taken as it stands (R60, R67). -/
def readRL (mk : Reg → Text → TextOp) (x y : Text) : OpResult :=
  match readReg x with
  | none => .error .invalidRegisterName
  | some ra => .op (mk ra y)

/-- The operands of a mnemonic: the arity first (R66), then each operand (R67). -/
def readOperands (m : Mnemonic) (args : List Text) : OpResult :=
  match m, args with
  | .add, [x, y] => readRR .add x y
  | .sub, [x, y] => readRR .sub x y
  | .mul, [x, y] => readRR .mul x y
  | .div, [x, y] => readRR .div x y
  | .mov, [x, y] => readRI .mov x y
  | .out, [x] => readR .out x
  | .jnz, [x, y] => readRL .jnz x y
  | _, _ => .error .malformedLine

/-- The opcode token and its operands (R65, R66, R67). -/
def readOp (tok : Text) (args : List Text) : OpResult :=
  match readMnemonic tok with
  | none => .error .unknownOpcode
  | some m => readOperands m args

/-- The label name of a token that ends with `:`, the one final `:` removed (R60, R64). -/
def attachedLabel (tok : Text) : Option Text :=
  if tok.getLast? = some ':' then some tok.dropLast else none

/-- The opcode and operands after the optional label. -/
def readAfterLabel (label : Option Text) (toks : List Text) : LineResult :=
  match toks with
  | [] => .error .malformedLine
  | tok :: args =>
    match readOp tok args with
    | .error e => .error e
    | .op o => .parts ⟨label, o⟩

/-- The checks of a line with tokens, in order: R63, R64, R65, R66, R67 (R70). -/
def readLine (toks : List Text) : LineResult :=
  if 4 < toks.length then .error .malformedLine
  else
    match toks with
    | [] => .error .malformedLine
    | tok :: rest =>
      match attachedLabel tok with
      | none => readAfterLabel none toks
      | some name => if name = [] then .error .malformedLine else readAfterLabel (some name) rest

/-! ### The whole text -/

/-- A translated program: the Program and the Label Table (R61, R69). -/
structure Translation where
  program : List TextInstr
  labels : LabelTable
  deriving DecidableEq, Repr

/-- What translation gives; an error carries the 1-based number of the failing line (R70, R105). -/
inductive TransResult where
  | ok (t : Translation)
  | error (e : AsmError) (line : Nat)
  deriving DecidableEq, Repr

/-- Bind the attached label to the program's length and append the instruction (R68, R69); `none` is
DuplicateLabel. -/
def Translation.append (t : Translation) (p : LineParts) : Option Translation :=
  match p.label with
  | none => some ⟨t.program ++ [⟨none, p.op⟩], t.labels⟩
  | some name =>
    match t.labels.addLabel name t.program.length with
    | none => none
    | some ls => some ⟨t.program ++ [⟨some name, p.op⟩], ls⟩

/-- The lines from line number `n` on; blank lines give nothing (R62), the first failing line stops
(R70). -/
def translateLines : Nat → List Text → Translation → TransResult
  | _, [], t => .ok t
  | n, ln :: lns, t =>
    if tokens ln = [] then translateLines (n + 1) lns t
    else
      match readLine (tokens ln) with
      | .error e => .error e n
      | .parts p =>
        match t.append p with
        | none => .error .duplicateLabel n
        | some t' => translateLines (n + 1) lns t'

/-- `Translate(text)`: Program and Label Table emptied, then each line in order (R61, R70). -/
def translate (text : Text) : TransResult :=
  translateLines 1 (splitLines text) ⟨[], LabelTable.reset⟩

end Sys2Proof.Machine
end

