-- ==== Sys2Proof/Machine/Image.lean ====
section
/-! DEFINITION. The binary image of a translated program (30_encoding.md R72 to R74), its serialised
bytes (20_memory.md R39), and loading and starting it (70_reset_and_hazards.md R116). -/

namespace Sys2Proof.Machine

/-- The names an instruction gives, in order: its attached label, then its `jnz` target (R72). -/
def namesOf (i : TextInstr) : List Text :=
  (match i.label with
    | some name => [name]
    | none => []) ++
  (match i.op with
    | .jnz _ target => [target]
    | _ => [])

/-- Each name not seen before gets the next id (R72). -/
def addNames : List Text → List Text → List Text
  | seen, [] => seen
  | seen, n :: ns => addNames (if n ∈ seen then seen else seen ++ [n]) ns

/-- The names of a program in the order of their ids (R72). -/
def labelNames (p : List TextInstr) : List Text := addNames [] (p.flatMap namesOf)

/-- The id of a name: its place among the program's names (R72). DESIGN CHOICE (log entry 19): R72 numbers
all names from 0 and R13 gives ids 32 bits; a place at or beyond 2^32, which a program with more than 2^32
names has and no image of a legal `LABEL_SLOTS` shows, is taken modulo 2^32. -/
def labelId (names : List Text) (name : Text) : LabelId := BitVec.ofNat 32 (names.idxOf name)

/-- The typed instruction of the binary level for one of the textual level (R48, R73). -/
def assemble (names : List Text) (i : TextInstr) : Instr :=
  let l := i.label.isSome
  match i.op with
  | .add ra rb => .add l ra rb
  | .sub ra rb => .sub l ra rb
  | .mul ra rb => .mul l ra rb
  | .div ra rb => .div l ra rb
  | .mov ra n => .mov l ra (BitVec.ofInt 32 n)
  | .out ra => .out l ra
  | .jnz ra target => .jnz l ra (labelId names target)

/-- The label table entry of a name (R74). DESIGN CHOICE (log entry 18): an address at or beyond 2^32, which
no translated program within a legal `PROG_MAX` binds, is taken modulo 2^32. -/
def imageEntry (labels : LabelTable) (name : Text) : LabelEntry :=
  match labels.getAddress name with
  | some a => ⟨true, BitVec.ofNat 32 a⟩
  | none => ⟨false, 0#32⟩

/-- What building an image gives (R74). -/
inductive ImageResult where
  | ok (img : Image)
  | error (e : AsmError)
  deriving DecidableEq, Repr

/-- The image of a translated program for given parameters; the length is checked first (R74). -/
def buildImage (p : Params) (t : Translation) : ImageResult :=
  let names := labelNames t.program
  if p.progMax < t.program.length then .error .programTooLong
  else if p.labelSlots < names.length then .error .tooManyLabels
  else .ok ⟨t.program.map (fun i => encode (assemble names i)), names.map (imageEntry t.labels)⟩

/-- Label table entry `id` of an image (R74). -/
def entryOf (img : Image) (id : Nat) : LabelEntry := img.labels.getD id ⟨false, 0#32⟩

/-- The loads of the program words from address `a` on (R116 step 3). -/
def wordMoves : Nat → List IWord → List HostMove
  | _, [] => []
  | a, w :: ws => .loadWord a w :: wordMoves (a + 1) ws

/-- The moves that load an image: every word, every label table entry, the length (R74, R116). -/
def loadMoves (img : Image) (p : Params) : List HostMove :=
  wordMoves 0 img.words ++
    (List.range p.labelSlots).map (fun id => HostMove.loadLabel id (entryOf img id)) ++
    [.write 0x08 (BitVec.ofNat 32 img.words.length)]

/-- The host's boot of an image: load it, then start the run (R116 steps 3 and 4). -/
def bootImage (img : Image) (s : State) : Option State :=
  hostMoves (loadMoves img s.params ++ [.write 0x00 1#32]) s

/-! ### Serialised form -/

/-- A 64-bit word as 8 bytes, bits 7:0 first (20_memory.md R39). -/
def bytesOfWord (w : IWord) : List Byte := (List.range 8).map (fun k => w.extractLsb' (8 * k) 8)

/-- A 32-bit register or label `ADDR` as 4 bytes, bits 7:0 first (R39). -/
def bytesOfAddr (a : Addr) : List Byte := (List.range 4).map (fun k => a.extractLsb' (8 * k) 8)

/-- The number little-endian bytes stand for. -/
def numOfBytes : List Byte → Nat
  | [] => 0
  | b :: bs => b.toNat + 256 * numOfBytes bs

/-- The words of a serialised program store: every 8 bytes one word, little-endian (R39, R51); bytes
short of a word give none. -/
def wordsOfBytes : List Byte → Option (List IWord)
  | [] => some []
  | b0 :: b1 :: b2 :: b3 :: b4 :: b5 :: b6 :: b7 :: bs =>
    (wordsOfBytes bs).map
      (fun ws => BitVec.ofNat 64 (numOfBytes [b0, b1, b2, b3, b4, b5, b6, b7]) :: ws)
  | _ => none

end Sys2Proof.Machine
end

