-- ==== Sys2Proof/Machine/TextCore.lean ====
section
/-! DEFINITION. The core at the textual level (30_encoding.md R48): it runs a translated Program, whose
entries are typed instructions, and looks label names up in the Label Table (10_state.md R21, R24, R26).
Registers, pc, status and output are those of `State`; its program store, `PROG_LEN` and label table play
no part here. Illegal words do not exist at this level (R90). -/

namespace Sys2Proof.Machine

/-- `Exec(i, a)` at the textual level (42_control_transfer.md R92, R94). An address at or beyond the
program's length holds no instruction (R94, BadTarget). `room` is as in `execAt`. DESIGN CHOICE (log entry
18): a target address is recorded as an `Addr`, so one at or beyond 2^32 is reported modulo 2^32. -/
def textExecAt (t : Translation) (room : Nat) (i : TextInstr) (a : Addr) (s : State) : Effect :=
  match i.op with
  | .add ra rb => addEffect ra rb s
  | .sub ra rb => subEffect ra rb s
  | .mul ra rb => mulEffect ra rb s
  | .div ra rb => divEffect ra rb a s
  | .mov ra n => movEffect ra (wrap32 n) s
  | .out ra => outEffect ra s
  | .jnz ra target =>
    if jumpTaken (s.getReg ra) then
      match t.labels.getAddress target with
      | none => .raised .undefinedLabel a s
      | some d =>
        match t.program[d]? with
        | none => .raised .badTarget a s
        | some j =>
          if t.program.length < s.countHop.hops then .raised .jumpCycle a s.countHop
          else
            match room with
            | 0 => .raised .jumpCycle a s.countHop
            | n + 1 => textExecAt t n j (BitVec.ofNat 32 d) s.countHop
    else .done s

/-- The state after an execution: completed, or its fault taken (60_exceptions.md R101). -/
def afterEffect : Effect → State
  | .done s => s
  | .raised c q s => s.enterFault c q

/-- `Step()` at the textual level (R90); with `STATE` other than RUN the state stays (log entry 4).
DESIGN CHOICE (log entry 18): R8 sets no limit on a textual program's length, and `pc` has 32 bits (R13,
R19); in a program of 2^32 or more instructions `pc` wraps to 0 after address 2^32 - 1. -/
def textStep (t : Translation) (s : State) : State :=
  if s.runState = .run then
    match t.program[s.pc.toNat]? with
    | none => s.endRun
    | some i =>
      if i.label.isSome then s.advance
      else (afterEffect (textExecAt t t.program.length i s.pc s.clearHops)).retire
  else s

end Sys2Proof.Machine
end

