-- ==== Sys2Proof/Safety.lean ====
section
/-! DEFINITION. What counts as a safe run, in the terms the statements use: the invariants of the core,
how a state comes about, and what an assembled program is. -/

namespace Sys2Proof.Machine

/-- The program counter, the lengths and the two stores are in range (10_state.md R19 to R25); during a run
`pc` is in [0, `PROG_LEN`] (R19). The stores' canonical form is the model's own (log entries 3 and 13). -/
structure State.InRange (s : State) : Prop where
  params : s.params.wf = true
  progLen : s.progLen.toNat ≤ s.params.progMax
  pc : s.runState = .run → s.pc ≤ s.progLen
  prog : s.prog.wf
  progKeys : ∀ x ∈ s.prog, x.1 < s.params.progMax
  labels : s.labels.wf
  labelKeys : ∀ x ∈ s.labels, x.1 < s.params.labelSlots

/-- The status registers say what R29 and R30 let them say: a cause exactly in FAULT, the two fault
addresses 0 outside it, and in FAULT `FAULT_PC` the pc that stayed (60_exceptions.md R101). That `HOPS` is
0 between steps is read from R33's "survives no step" (log entry 9). -/
structure State.StatusOk (s : State) : Prop where
  cause : s.runState = .fault ↔ s.cause ≠ none
  noFaultPc : s.runState ≠ .fault → s.faultPc = 0#32
  noFaultAddr : s.runState ≠ .fault → s.faultAddr = 0#32
  faultPc : s.runState = .fault → s.faultPc = s.pc
  hops : s.hops = 0

/-- The invariant of the core. -/
def State.Inv (s : State) : Prop := s.InRange ∧ s.StatusOk

/-- One thing that happens to the core: a step, a move of the host, or a power-on reset. -/
inductive Event where
  | core
  | host (m : HostMove)
  | powerOn
  deriving DecidableEq, Repr

/-- An event takes the core from `s` to `s'`. -/
def Event.leads (e : Event) (s s' : State) : Prop :=
  match e with
  | .core => step s = .next s'
  | .host m => ∃ reply, hostMove m s = .done s' reply
  | .powerOn => s' = s.powerOn

/-- The states a core with parameters `p` can come to from its first power-on. -/
inductive Reachable (p : Params) : State → Prop where
  | powerOn : Reachable p (State.resetFor p 0)
  | event {s s' : State} (e : Event) : Reachable p s → e.leads s s' → Reachable p s'

/-- The core holds a program whose every word is legal and whose every bound label is an address of the
program: what an image built from a translated program gives (30_encoding.md R73, R74, R97). -/
structure State.Assembled (s : State) : Prop where
  legal : ∀ a : Addr, a < s.progLen → ∃ i, s.instrAt a = .instr i
  bound : ∀ t d, s.labelLookup t = some d → d < s.progLen

/-- The core holds the image of a translated program (30_encoding.md R73, R74): each entry decodes to
the program's typed instruction, each name's id is bound as the Label Table binds the name, and every
bound address is one of the program. A program of 2^32 or more instructions is held by no core (log
entry 18). -/
structure State.Holds (s : State) (t : Translation) : Prop where
  length : s.progLen.toNat = t.program.length
  entries : ∀ (a : Nat) (i : TextInstr), t.program[a]? = some i →
    s.instrAt (BitVec.ofNat 32 a) = .instr (assemble (labelNames t.program) i)
  names : ∀ name ∈ labelNames t.program,
    s.labelLookup (labelId (labelNames t.program) name) =
      (t.labels.getAddress name).map (BitVec.ofNat 32)
  bound : ∀ name a, t.labels.getAddress name = some a → a < t.program.length

/-- Two states agree on everything but the register file. -/
def SameButRegs (s t : State) : Prop := t = { s with regs := t.regs }

/-- Two states hold the same image: program store, length, label table, parameters, and the power-on
that, in the model, fixes what unloaded entries hold (log entry 2). -/
def SameImage (s t : State) : Prop :=
  s.prog = t.prog ∧ s.progLen = t.progLen ∧ s.labels = t.labels ∧ s.params = t.params ∧
    s.powerOns = t.powerOns

/-- A `jnz` about to execute at an address: where a chain stands (42_control_transfer.md R96). -/
structure ChainAt where
  ra : Reg
  t : LabelId
  a : Addr
  deriving DecidableEq, Repr

/-- The `jnz` a taken `jnz` enters, if its register is not 0 and its target is bound, in the program,
and itself a `jnz` (R94, R96). It reads no hop count. -/
def State.chainNext (s : State) (c : ChainAt) : Option ChainAt :=
  if s.getReg c.ra = 0#32 then none
  else
    match s.labelLookup c.t with
    | none => none
    | some d =>
      if d < s.progLen then
        match s.instrAt d with
        | .instr (.jnz _ ra t) => some ⟨ra, t, d⟩
        | _ => none
      else none

/-- Where the chain from `c` stands after `k` jumps; `none` once it has ended (R96). -/
def State.chain (s : State) (c : ChainAt) : Nat → Option ChainAt
  | 0 => some c
  | k + 1 =>
    match s.chain c k with
    | none => none
    | some c' => s.chainNext c'

end Sys2Proof.Machine
end

