-- ==== Sys2Proof/Certificates/Slice0/Obligations.lean ====
section
/-! DEFINITION. The statements about the core, each from the spec's numbered rules. -/

open Sys2Proof Sys2Proof.Machine

/-! ### Reset, start of a run, host interface -/

/-- The values R112 gives every piece of state at power-on. -/
def Obligations.PowerOnResetValues : Prop :=
  ∀ s : State, ((∃ p n, s = State.resetFor p n) ∨ ∃ s0 : State, s = s0.powerOn) →
    (∀ r, s.getReg r = 0#32) ∧ s.pc = 0#32 ∧ s.hops = 0 ∧ s.progLen = 0#32 ∧
    (∀ t, s.labelLookup t = none) ∧ s.runState = .idle ∧ s.cause = none ∧
    s.faultPc = 0#32 ∧ s.faultAddr = 0#32 ∧ hostMove (.read 0x00) s = .done s (some 0#32)

/-- What power-on leaves open: an entry of the program store holds the free value of that power-on and
address (the model's form of "entries unspecified", log entry 2), the parameters are those of the core,
and the output sink, outside the core, keeps what it has (log entry 6). -/
def Obligations.PowerOnLeavesOpen : Prop :=
  (∀ (p : Params) (n a : Nat), (State.resetFor p n).wordAt a = Config.powerOnWord n a) ∧
  (∀ (s : State) (a : Nat), s.powerOn.wordAt a = Config.powerOnWord (s.powerOns + 1) a ∧
    s.powerOn.params = s.params ∧ s.powerOn.output = s.output)

/-- The invariant of the core holds after power-on reset, for every legal choice of the open
parameters, the ones of `State.reset` among them (R8, R36, R112). -/
def Obligations.ResetMeetsInvariant : Prop :=
  (∀ (p : Params) (n : Nat), p.wf = true → (State.resetFor p n).Inv) ∧ State.reset.Inv

/-- R113: a write of `CTRL.START` = 1 outside RUN resets the pc and clears the register bank, clears
`CAUSE`, `FAULT_PC`, `FAULT_ADDR` and `HOPS`, sets RUN, and changes neither program store, nor
`PROG_LEN`, nor label table, nor what the sink has. -/
def Obligations.StartOfRun : Prop :=
  ∀ (s : State) (v : Word), s.runState ≠ .run → v.getLsbD 0 = true →
    ∃ t, hostMove (.write 0x00 v) s = .done t none ∧
      (∀ r, t.getReg r = 0#32) ∧ t.pc = 0#32 ∧ t.cause = none ∧ t.faultPc = 0#32 ∧
      t.faultAddr = 0#32 ∧ t.hops = 0 ∧ t.runState = .run ∧ t.prog = s.prog ∧
      t.progLen = s.progLen ∧ t.labels = s.labels ∧ t.output = s.output ∧ t.params = s.params ∧
      t.powerOns = s.powerOns

/-- R28: `CTRL` reads as 0; `START` = 1 starts a run outside RUN and is ignored in RUN; writing 0 to
it does nothing; the other bits have no effect. -/
def Obligations.CtrlFields : Prop :=
  ∀ (s : State) (v : Word),
    hostMove (.read 0x00) s = .done s (some 0#32) ∧
    (s.runState = .run → hostMove (.write 0x00 v) s = .done s none) ∧
    (v.getLsbD 0 = false → hostMove (.write 0x00 v) s = .done s none) ∧
    (s.runState ≠ .run → v.getLsbD 0 = true → hostMove (.write 0x00 v) s = .done s.startRun none)

/-- R29: the fields of `STATUS`, under the invariant that the cause is 0 outside FAULT. That a write
leaves it alone is the model's reading of "read-only" (log entry 7). -/
def Obligations.StatusFields : Prop :=
  ∀ s : State, s.StatusOk →
    ∃ w : Word, hostMove (.read 0x04) s = .done s (some w) ∧
      (s.runState = .idle → w.extractLsb' 0 2 = 0#2) ∧
      (s.runState = .run → w.extractLsb' 0 2 = 1#2) ∧
      (s.runState = .done → w.extractLsb' 0 2 = 2#2) ∧
      (s.runState = .fault → w.extractLsb' 0 2 = 3#2) ∧
      (s.runState ≠ .fault → w.extractLsb' 4 4 = 0#4) ∧
      (s.cause = some .divideByZero → w.extractLsb' 4 4 = 1#4) ∧
      (s.cause = some .undefinedLabel → w.extractLsb' 4 4 = 2#4) ∧
      (s.cause = some .illegalInstruction → w.extractLsb' 4 4 = 3#4) ∧
      (s.cause = some .badTarget → w.extractLsb' 4 4 = 4#4) ∧
      (s.cause = some .jumpCycle → w.extractLsb' 4 4 = 5#4) ∧
      w.extractLsb' 2 2 = 0#2 ∧ w.extractLsb' 8 24 = 0#24 ∧
      ∀ v, hostMove (.write 0x04 v) s = .done s none

/-- R27, R108: what the host reads in its window. -/
def Obligations.HostWindowReads : Prop :=
  ∀ s : State,
    hostMove (.read 0x08) s = .done s (some s.progLen) ∧
    hostMove (.read 0x0C) s = .done s (some s.faultPc) ∧
    hostMove (.read 0x10) s = .done s (some s.faultAddr) ∧
    (s.runState ≠ .run → ∀ r : Reg,
      hostMove (.read (0x20 + 4 * (regNum r).toNat)) s = .done s (some (s.getReg r))) ∧
    (∀ off : Nat, (0x14 ≤ off ∧ off ≤ 0x1C) ∨ 0x3C < off →
      hostMove (.read off) s = .done s (some 0#32) ∧
      ∀ v, hostMove (.write off v) s = .done s none)

/-- R108, R22: setting the length stores it if it is at most `PROG_MAX`, else it is ignored; during a
run the model gives the host no such move (R46, log entry 5). -/
def Obligations.SetLength : Prop :=
  ∀ (s : State) (n : Word),
    (s.runState ≠ .run → n.toNat ≤ s.params.progMax →
      hostMove (.write 0x08 n) s = .done { s with progLen := n } none) ∧
    (s.runState ≠ .run → s.params.progMax < n.toNat → hostMove (.write 0x08 n) s = .done s none) ∧
    (s.runState = .run → hostMove (.write 0x08 n) s = .refused .duringRun)

/-- R108, R21: a loaded word is the one fetched at its address; every other entry and all other state
stay as they are. -/
def Obligations.LoadedWordIsFetched : Prop :=
  ∀ (s : State) (a : Nat) (w : IWord), s.runState ≠ .run → a < s.params.progMax →
    ∃ t, hostMove (.loadWord a w) s = .done t none ∧ t.wordAt a = w ∧
      (∀ b, b ≠ a → t.wordAt b = s.wordAt b) ∧ t = { s with prog := t.prog }

/-- R108, R25, R26: a loaded label entry is the one looked up; every other id and all other state stay
as they are; an id at or beyond `LABEL_SLOTS` is unbound. -/
def Obligations.LoadedLabelIsLookedUp : Prop :=
  (∀ (s : State) (id : LabelId) (e : LabelEntry), s.labels.wf → s.runState ≠ .run →
    id.toNat < s.params.labelSlots →
    ∃ t, hostMove (.loadLabel id.toNat e) s = .done t none ∧
      t.labelLookup id = (if e.v then some e.addr else none) ∧
      (∀ id', id' ≠ id → t.labelLookup id' = s.labelLookup id') ∧ t = { s with labels := t.labels }) ∧
  (∀ (s : State) (id : LabelId), s.params.labelSlots ≤ id.toNat → s.labelLookup id = none)

/-- R108, R46: during a run the model gives the host no load, and never one outside the
tables (log entry 5). -/
def Obligations.NoLoadDuringRun : Prop :=
  ∀ (s : State) (a : Nat) (w : IWord) (e : LabelEntry),
    (s.runState = .run → hostMove (.loadWord a w) s = .refused .duringRun ∧
      hostMove (.loadLabel a e) s = .refused .duringRun) ∧
    (s.runState ≠ .run → s.params.progMax ≤ a → hostMove (.loadWord a w) s = .refused .noSuchEntry) ∧
    (s.runState ≠ .run → s.params.labelSlots ≤ a →
      hostMove (.loadLabel a e) s = .refused .noSuchEntry)

/-- R17: the register file's three operations: a read returns the last value `set` or `clear` left, and
neither changes anything else. -/
def Obligations.RegisterFileOperations : Prop :=
  ∀ (s : State) (r : Reg) (v : Word),
    (s.setReg r v).getReg r = v ∧ (∀ r', r' ≠ r → (s.setReg r v).getReg r' = s.getReg r') ∧
    (∀ r', s.clearRegs.getReg r' = 0#32) ∧
    SameButRegs s (s.setReg r v) ∧ SameButRegs s s.clearRegs

/-! ### The ALU family -/

/-- R81: `add` writes the wrapped sum to `ra` and nothing else; it never faults; its encoding. -/
def Obligations.AddResult : Prop :=
  ∀ (l : Bool) (ra rb : Reg) (s : State),
    (∃ t, exec (.add l ra rb) s = .next t ∧
      t.getReg ra = BitVec.ofInt 32 ((s.getReg ra).toInt + (s.getReg rb).toInt) ∧
      (∀ r, r ≠ ra → t.getReg r = s.getReg r) ∧ SameButRegs s t) ∧
    encode (.add l ra rb) &&& 0xFFFFFFFFFFFFFC07#64 = 0x0000000000000000#64

/-- R82: `sub` writes the wrapped difference, `ra` less `rb`, to `ra` and nothing else. -/
def Obligations.SubResult : Prop :=
  ∀ (l : Bool) (ra rb : Reg) (s : State),
    (∃ t, exec (.sub l ra rb) s = .next t ∧
      t.getReg ra = BitVec.ofInt 32 ((s.getReg ra).toInt - (s.getReg rb).toInt) ∧
      (∀ r, r ≠ ra → t.getReg r = s.getReg r) ∧ SameButRegs s t) ∧
    encode (.sub l ra rb) &&& 0xFFFFFFFFFFFFFC07#64 = 0x0000000000000001#64

/-- R83: `mul` writes the low 32 bits of the exact product to `ra` and nothing else. -/
def Obligations.MulResult : Prop :=
  ∀ (l : Bool) (ra rb : Reg) (s : State),
    (∃ t, exec (.mul l ra rb) s = .next t ∧
      t.getReg ra = BitVec.ofInt 32 ((s.getReg ra).toInt * (s.getReg rb).toInt) ∧
      (∀ r, r ≠ ra → t.getReg r = s.getReg r) ∧ SameButRegs s t) ∧
    encode (.mul l ra rb) &&& 0xFFFFFFFFFFFFFC07#64 = 0x0000000000000002#64

/-- R84: with both operands non-zero `div` writes the quotient rounded toward zero to `ra` and nothing
else; with either operand 0 it takes DivideByZero and writes no register; its encoding. The quotient is
the one of Lean's own truncating division. -/
def Obligations.DivResult : Prop :=
  ∀ (l : Bool) (ra rb : Reg) (s : State),
    (s.getReg ra ≠ 0#32 → s.getReg rb ≠ 0#32 →
      ∃ t, exec (.div l ra rb) s = .next t ∧
        t.getReg ra = BitVec.ofInt 32 (Int.tdiv (s.getReg ra).toInt (s.getReg rb).toInt) ∧
        (∀ r, r ≠ ra → t.getReg r = s.getReg r) ∧ SameButRegs s t) ∧
    (s.getReg ra = 0#32 ∨ s.getReg rb = 0#32 →
      exec (.div l ra rb) s = .next
        { s with runState := .fault, cause := some .divideByZero, faultPc := s.pc, faultAddr := s.pc }) ∧
    encode (.div l ra rb) &&& 0xFFFFFFFFFFFFFC07#64 = 0x0000000000000003#64

/-- R11, R84: the quotient `div` writes is rounded toward zero (the remainder is smaller than the
divisor and has the dividend's sign), but for -2^31 / -1, which gives -2^31. -/
def Obligations.QuotientTowardZero : Prop :=
  (∀ a b : Word, b ≠ 0#32 → ¬(a = 0x80000000#32 ∧ b = 0xFFFFFFFF#32) →
    ∃ r : Int, a.toInt = (aluDiv a b).toInt * b.toInt + r ∧ r.natAbs < b.toInt.natAbs ∧
      (0 ≤ a.toInt → 0 ≤ r) ∧ (a.toInt ≤ 0 → r ≤ 0)) ∧
  aluDiv 0x80000000#32 0xFFFFFFFF#32 = 0x80000000#32

/-- R80: sums, differences and products wrap modulo 2^32. -/
def Obligations.ResultsWrap : Prop :=
  ∀ a b : Word,
    ((aluAdd a b).toNat : Int) = (a.toInt + b.toInt) % 2 ^ 32 ∧
    ((aluSub a b).toNat : Int) = (a.toInt - b.toInt) % 2 ^ 32 ∧
    ((aluMul a b).toNat : Int) = (a.toInt * b.toInt) % 2 ^ 32

/-! ### The move and output family -/

/-- R86: `mov` writes its literal to `ra` whatever it held, and nothing else; its encoding. A line whose
literal token is no optional sign and digits, or whose value lies outside -2^31 .. 2^31 - 1, fails translation
with InvalidIntegerLiteral, with or without an attached label; one in range is read as its value (R59,
R67). -/
def Obligations.MovResult : Prop :=
  ∀ (l : Bool) (ra : Reg) (imm : Word) (s : State),
    (∃ t, exec (.mov l ra imm) s = .next t ∧ t.getReg ra = imm ∧
      (∀ r, r ≠ ra → t.getReg r = s.getReg r) ∧ SameButRegs s t) ∧
    encode (.mov l ra imm) &&& 0x00000000FFFFFF87#64 = 0x0000000000000004#64 ∧
    (encode (.mov l ra imm)).extractLsb' 32 32 = imm ∧
    (∀ n : Int, -2147483648 ≤ n → n ≤ 2147483647 → (BitVec.ofInt 32 n).toInt = n) ∧
    (∀ (ln x y : Text) (n : Nat) (after : List Text) (start : Translation), readReg x = some ra →
      (tokens ln = ["mov".toList, x, y] ∨
        ∃ name, name ≠ [] ∧ tokens ln = [name ++ [':'], "mov".toList, x, y]) →
      (readSigned y = none ∨ ∃ v, readSigned y = some v ∧ (v < -2147483648 ∨ 2147483647 < v)) →
      readLine (tokens ln) = .error .invalidIntegerLiteral ∧
        translateLines n (ln :: after) start = .error .invalidIntegerLiteral n) ∧
    (∀ (x y : Text) (v : Int), readReg x = some ra → readSigned y = some v →
      -2147483648 ≤ v → v ≤ 2147483647 →
      readLine ["mov".toList, x, y] = .parts ⟨none, .mov ra v⟩ ∧
        ∀ name, name ≠ [] →
          readLine [name ++ [':'], "mov".toList, x, y] = .parts ⟨some name, .mov ra v⟩)

/-- R87: `out` sends exactly one record, its register and the value read from it, and changes nothing
else; its encoding. -/
def Obligations.OutResult : Prop :=
  ∀ (l : Bool) (ra : Reg) (s : State),
    exec (.out l ra) s = .next { s with output := s.output ++ [⟨ra, s.getReg ra⟩] } ∧
    encode (.out l ra) &&& 0xFFFFFFFFFFFFFF87#64 = 0x0000000000000005#64

/-! ### `jnz` -/

/-- R94: a `jnz` whose register is 0 has no effect, its target looked up or not. -/
def Obligations.JnzNotTaken : Prop :=
  ∀ (l : Bool) (ra : Reg) (t : LabelId) (s : State), s.getReg ra = 0#32 →
    exec (.jnz l ra t) s = .next s

/-- R94, R95: a taken `jnz` executes a target that is no `jnz` once, in place: the register it writes
or the record it sends is what the target's own meaning gives in the state of that moment, and the pc
does not move. (A `div` target here has both operands non-zero.) -/
def Obligations.JnzTakenRunsTarget : Prop :=
  ∀ (l : Bool) (ra : Reg) (t : LabelId) (s : State) (d : Addr) (j : Instr),
    s.hops = 0 → s.getReg ra ≠ 0#32 → s.labelLookup t = some d → d < s.progLen →
    s.instrAt d = .instr j → (∀ l' ra' t', j ≠ .jnz l' ra' t') →
    (∀ l' ra' rb', j = .div l' ra' rb' → s.getReg ra' ≠ 0#32 ∧ s.getReg rb' ≠ 0#32) →
    ∃ u v, exec j s = .next u ∧ exec (.jnz l ra t) s = .next v ∧
      v = { u with hops := 1 } ∧ v.pc = s.pc ∧ v.runState = s.runState

/-- R94, R100, R101: a taken jump to a `div` with a zero operand takes DivideByZero; `FAULT_PC` is the
jump's address, `FAULT_ADDR` the `div`'s; no register changes and no record is sent. -/
def Obligations.JnzNestedDivideByZero : Prop :=
  ∀ (l l' : Bool) (ra ra' rb' : Reg) (t : LabelId) (s : State) (d : Addr),
    s.hops = 0 → s.getReg ra ≠ 0#32 → s.labelLookup t = some d → d < s.progLen →
    s.instrAt d = .instr (.div l' ra' rb') → (s.getReg ra' = 0#32 ∨ s.getReg rb' = 0#32) →
    exec (.jnz l ra t) s = .next
      { s with runState := .fault, cause := some .divideByZero, faultPc := s.pc, faultAddr := d,
               hops := 1 }

/-- R94, R100, R103: the faults of a taken `jnz` itself, in their order: UndefinedLabel and BadTarget at
the jump's address, IllegalInstruction at the target's. Nothing but the status and the hop count
changes. -/
def Obligations.JnzFaults : Prop :=
  ∀ (l : Bool) (ra : Reg) (t : LabelId) (s : State), s.hops = 0 → s.getReg ra ≠ 0#32 →
    (s.labelLookup t = none → exec (.jnz l ra t) s = .next
      { s with runState := .fault, cause := some .undefinedLabel, faultPc := s.pc,
               faultAddr := s.pc }) ∧
    (∀ d, s.labelLookup t = some d → s.progLen ≤ d → exec (.jnz l ra t) s = .next
      { s with runState := .fault, cause := some .badTarget, faultPc := s.pc, faultAddr := s.pc }) ∧
    (∀ d w, s.labelLookup t = some d → d < s.progLen → s.instrAt d = .illegal w →
      exec (.jnz l ra t) s = .next
        { s with runState := .fault, cause := some .illegalInstruction, faultPc := s.pc,
                 faultAddr := d, hops := 1 })

/-- R94, R52: the encoding of `jnz`: the label id in `IMM`. -/
def Obligations.JnzEncoding : Prop :=
  ∀ (l : Bool) (ra : Reg) (t : LabelId),
    encode (.jnz l ra t) &&& 0x00000000FFFFFF87#64 = 0x0000000000000006#64 ∧
    (encode (.jnz l ra t)).extractLsb' 32 32 = t

/-- R96: JumpCycle faults exactly the chains that would never end, and no finite one. The chain is
followed here without any hop count. (The spec marks this consequence as its own inference, "by the
pigeonhole principle".) On such a chain (R94, R100, R101) `FAULT_PC` is the outer jump's address, `FAULT_ADDR`
that of the `jnz` that would enter one target too many, where the chain stands after `PROG_LEN` jumps, and
nothing else changes but the hop count. That this holds at `PROG_LEN` = 2^32 - 1 too, where the count reaches
2^32, is log entry 17. -/
def Obligations.JumpCycleExactlyEndlessChains : Prop :=
  ∀ (l : Bool) (ra : Reg) (t : LabelId) (s : State), s.runState = .run → s.hops = 0 →
    ((∃ u, exec (.jnz l ra t) s = .next u ∧ u.cause = some .jumpCycle ∧ u.runState = .fault) ↔
      ∀ k, s.chain ⟨ra, t, s.pc⟩ k ≠ none) ∧
    ((∀ k, s.chain ⟨ra, t, s.pc⟩ k ≠ none) →
      ∃ c, s.chain ⟨ra, t, s.pc⟩ s.progLen.toNat = some c ∧
        exec (.jnz l ra t) s = .next
          { s with runState := .fault, cause := some .jumpCycle, faultPc := s.pc, faultAddr := c.a,
                   hops := s.progLen.toNat + 1 })

/-- R96: a chain that reaches a `jnz` whose register is 0 ends there with no other effect; one that
reaches a target that is no `jnz` executes it once and ends. -/
def Obligations.FiniteChainCompletes : Prop :=
  ∀ (l : Bool) (ra : Reg) (t : LabelId) (s : State) (k : Nat) (c : ChainAt), s.hops = 0 →
    s.chain ⟨ra, t, s.pc⟩ k = some c →
    (s.getReg c.ra = 0#32 → exec (.jnz l ra t) s = .next { s with hops := k }) ∧
    (∀ d j, s.getReg c.ra ≠ 0#32 → s.labelLookup c.t = some d → d < s.progLen →
      s.instrAt d = .instr j → (∀ l' ra' t', j ≠ .jnz l' ra' t') →
      (∀ l' ra' rb', j = .div l' ra' rb' → s.getReg ra' ≠ 0#32 ∧ s.getReg rb' ≠ 0#32) →
      ∃ u, exec j s = .next u ∧ exec (.jnz l ra t) s = .next { u with hops := k + 1 })

/-- R96, R94, R101: a chain that reaches a `jnz` whose jump raises, or a `div` with a zero operand,
takes that fault: `FAULT_PC` is the outer jump's address, `FAULT_ADDR` that of the instruction that
raised. -/
def Obligations.FiniteChainFaults : Prop :=
  ∀ (l : Bool) (ra : Reg) (t : LabelId) (s : State) (k : Nat) (c : ChainAt), s.hops = 0 →
    s.chain ⟨ra, t, s.pc⟩ k = some c → s.getReg c.ra ≠ 0#32 →
    (s.labelLookup c.t = none → exec (.jnz l ra t) s = .next
      { s with runState := .fault, cause := some .undefinedLabel, faultPc := s.pc, faultAddr := c.a,
               hops := k }) ∧
    (∀ d, s.labelLookup c.t = some d → s.progLen ≤ d → exec (.jnz l ra t) s = .next
      { s with runState := .fault, cause := some .badTarget, faultPc := s.pc, faultAddr := c.a,
               hops := k }) ∧
    (∀ d w, s.labelLookup c.t = some d → d < s.progLen → s.instrAt d = .illegal w →
      exec (.jnz l ra t) s = .next
        { s with runState := .fault, cause := some .illegalInstruction, faultPc := s.pc,
                 faultAddr := d, hops := k + 1 }) ∧
    (∀ d l' ra' rb', s.labelLookup c.t = some d → d < s.progLen →
      s.instrAt d = .instr (.div l' ra' rb') → (s.getReg ra' = 0#32 ∨ s.getReg rb' = 0#32) →
      exec (.jnz l ra t) s = .next
        { s with runState := .fault, cause := some .divideByZero, faultPc := s.pc, faultAddr := d,
                 hops := k + 1 })

/-! ### The step -/

/-- R90: when the word at `pc` decodes to an unlabelled instruction, the step is that instruction's
meaning with `HOPS` cleared, followed by the advance of `pc` unless it raised. That `HOPS` is
0 again after the step is read from R33's "survives no step" (log entry 9). -/
def Obligations.StepRunsDecoded : Prop :=
  ∀ (s : State) (i : Instr), s.runState = .run → s.pc < s.progLen → s.instrAt s.pc = .instr i →
    labelled i = false →
    ∃ u, exec i { s with hops := 0 } = .next u ∧
      step s = .next
        { u with hops := 0, pc := if u.runState = .run then u.pc + 1#32 else u.pc }

/-- R91: the main loop skips a labelled instruction: only the pc changes, by 1. -/
def Obligations.StepSkipsLabelled : Prop :=
  ∀ (s : State) (i : Instr), s.runState = .run → s.pc < s.progLen → s.instrAt s.pc = .instr i →
    labelled i = true → step s = .next { s with pc := s.pc + 1#32 }

/-- R56: an Illegal word at `pc` raises IllegalInstruction, whatever its label bit. -/
def Obligations.StepIllegal : Prop :=
  ∀ (s : State) (w : Illegal), s.runState = .run → s.pc < s.progLen → s.instrAt s.pc = .illegal w →
    step s = .next
      { s with runState := .fault, cause := some .illegalInstruction, faultPc := s.pc,
               faultAddr := s.pc }

/-- R93: a step that begins with `pc = PROG_LEN` ends the run DONE; the pc stays and the registers hold
what the run left. -/
def Obligations.StepEndsRun : Prop :=
  ∀ s : State, s.runState = .run → s.pc = s.progLen → step s = .next { s with runState := .done }

/-- With `STATE` other than RUN nothing happens. R93 says that no step follows; that the model's step
then answers the same state is its own choice (log entry 4). -/
def Obligations.StoppedCoreStays : Prop :=
  ∀ s : State, s.runState ≠ .run → step s = .next s

/-- R90, R101: a step that considers an instruction and does not raise advances `pc` by exactly 1; one
that raises leaves it. -/
def Obligations.StepAdvancesByOne : Prop :=
  ∀ s : State, s.runState = .run → s.pc < s.progLen →
    ∃ t, step s = .next t ∧
      ((t.runState = .run ∧ t.pc = s.pc + 1#32) ∨ (t.runState = .fault ∧ t.pc = s.pc))

/-- R101, R102: the faulting step changes nothing but `STATE`, `CAUSE`, `FAULT_PC` and `FAULT_ADDR`, and
`FAULT_PC` is the pc of the step. (R102 is an inference the spec marks as its own; that `HOPS` is 0
between steps is log entry 9.) -/
def Obligations.FaultsArePrecise : Prop :=
  ∀ s t : State, s.runState = .run → s.hops = 0 → step s = .next t → t.runState = .fault →
    ∃ c q, t = { s with runState := .fault, cause := some c, faultPc := s.pc, faultAddr := q }

/-- R46: no step changes the program store, `PROG_LEN`, the label table or the parameters. -/
def Obligations.StepKeepsProgram : Prop :=
  ∀ s t : State, step s = .next t → SameImage s t

/-- R19, R95, and R31 (an inference the spec marks as its own): no instruction, nested executions
included, writes `pc`, the program store, `PROG_LEN` or
the label table, and whatever it writes of the status is a fault entry (R101). -/
def Obligations.InstructionFrame : Prop :=
  ∀ (i : Instr) (s : State),
    ∃ t, exec i s = .next t ∧ t.pc = s.pc ∧ SameImage s t ∧
      ((t.runState = s.runState ∧ t.cause = s.cause ∧ t.faultPc = s.faultPc ∧
          t.faultAddr = s.faultAddr) ∨
        (t.runState = .fault ∧ t.cause ≠ none ∧ t.faultPc = s.pc ∧ t.regs = s.regs ∧
          t.output = s.output))

/-- R16, R32: in a step at most one register changes, or one record is sent, never both; a record
carries a register and the value it held. -/
def Obligations.OneEffectPerStep : Prop :=
  ∀ s t : State, step s = .next t →
    (t.output = s.output ∧ ∃ ra, ∀ r, r ≠ ra → t.getReg r = s.getReg r) ∨
    (t.regs = s.regs ∧ ∃ r, t.output = s.output ++ [⟨r, s.getReg r⟩])

/-- A word placed by `withFetchWord` is the one the next step runs (log entry 8). -/
def Obligations.PlacedWordRuns : Prop :=
  ∀ (s : State) (i : Instr), labelled i = false →
    ∃ u, exec i { s.withFetchWord 64 (encode i).toNat with hops := 0 } = .next u ∧
      step (s.withFetchWord 64 (encode i).toNat) = .next u.retire

/-! ### Invariants and runs -/

/-- Every step keeps the invariant: parameters, lengths, pc and the stores' addresses in range (R8, R19 to
R25), `CAUSE`, `FAULT_PC` and `FAULT_ADDR` as R29 and R30 let them be. Two of its clauses are the model's
choice: the stores' canonical form (log entries 3 and 13), and `HOPS` 0 between steps, read from R33's "survives no
step" (log entry 9). -/
def Obligations.StepKeepsInvariant : Prop :=
  ∀ s t : State, s.Inv → step s = .next t → t.Inv

/-- Every move of the host and every power-on reset keeps the invariant, with its clauses that are the
model's choice: the stores' canonical form (log entries 3 and 13) and `HOPS` 0 between steps (log entry 9). -/
def Obligations.HostKeepsInvariant : Prop :=
  (∀ (s t : State) (m : HostMove) (reply : Option Word), s.Inv → hostMove m s = .done t reply → t.Inv) ∧
  (∀ s : State, s.Inv → s.powerOn.Inv)

/-- Every state a core can come to, by steps, host moves and power-on resets, meets the invariant and
has the parameters it was built with. The invariant's clauses on the stores' canonical form (log entries 3
and 13) and on `HOPS` between steps (log entry 9) are the model's choice. -/
def Obligations.ReachableMeetsInvariant : Prop :=
  ∀ (p : Params) (s : State), p.wf = true → Reachable p s → s.Inv ∧ s.params = p

/-- R100: a core that holds an assembled program keeps holding one, and the only faults its steps can
take are DivideByZero, UndefinedLabel and JumpCycle. -/
def Obligations.AssembledProgramFaults : Prop :=
  ∀ s : State, s.runState = .run → s.Assembled →
    ∃ t, step s = .next t ∧ t.Assembled ∧
      (t.runState = .fault →
        t.cause = some .divideByZero ∨ t.cause = some .undefinedLabel ∨ t.cause = some .jumpCycle)

/-- R99: every run ends, DONE at `PROG_LEN` or FAULT, within one step for each instruction from `pc` on
and one more. (R99 is an inference the spec marks as its own.) -/
def Obligations.EveryRunEnds : Prop :=
  ∀ s : State, s.Inv → s.runState = .run →
    ∃ k t, k ≤ s.progLen.toNat - s.pc.toNat + 1 ∧ Host.Core.run core k s = .next t ∧
      ((t.runState = .done ∧ t.pc = s.progLen) ∨ t.runState = .fault)

/-- R115: two runs of one image give the same registers, pc, status and fault addresses after every
number of steps, and the same sequence of records, whatever the core held before the start. (R115 is an
inference the spec marks as its own; that a stopped core's further steps leave it alone is log entry 4.)
`SameImage` does not ask that every entry below `PROG_LEN` is loaded: that two cores agree on an entry nothing
has loaded is the model's choice, the free word fixed by power-on number and address (log entry 2). -/
def Obligations.RunsDependOnImageOnly : Prop :=
  ∀ s s' : State, SameImage s s' → ∀ k,
    ∃ t t' records, Host.Core.run core k s.startRun = .next t ∧
      Host.Core.run core k s'.startRun = .next t' ∧
      t.regs = t'.regs ∧ t.pc = t'.pc ∧ t.runState = t'.runState ∧ t.cause = t'.cause ∧
      t.faultPc = t'.faultPc ∧ t.faultAddr = t'.faultAddr ∧
      t.output = s.output ++ records ∧ t'.output = s'.output ++ records

/-! ### Encoding -/

/-- R55, R73: decoding the word of an instruction gives it back, every operand at every value. -/
def Obligations.DecodeEncode : Prop :=
  ∀ i : Instr, decode (encode i) = .instr i

/-- R55, R73: a legal word is the word of the instruction it decodes to: no bit is dropped, and no two
legal words decode to one instruction. -/
def Obligations.EncodeDecode : Prop :=
  ∀ (w : IWord) (i : Instr), decode w = .instr i → encode i = w

/-- R55, R78: `Decode` returns a typed instruction for exactly the words that match a row of the opcode
map, and then the row is the instruction's own and the only one. -/
def Obligations.DecodeFollowsOpcodeMap : Prop :=
  ∀ w : IWord,
    ((∃ i, decode w = .instr i) ↔ ∃ r ∈ opcodeMap, w &&& r.mask = r.pattern) ∧
    (∀ i, decode w = .instr i → ∀ k r, opcodeMap[k]? = some r →
      (w &&& r.mask = r.pattern ↔ k = rowIndex i))

/-- R52, R55: some words written out from the encoding, legal and Illegal ones (the spec's own
vectors). -/
def Obligations.DecodedWords : Prop :=
  decode 0x0000000000000380#64 = .instr (.add false .eax .edi) ∧
  decode 0x0000000000000011#64 = .instr (.sub false .ebx .eax) ∧
  decode 0x0000000000000132#64 = .instr (.mul false .edx .ecx) ∧
  decode 0x00000000000001AB#64 = .instr (.div true .ecx .edx) ∧
  decode 0xFFFFFFFF00000074#64 = .instr (.mov false .edi 0xFFFFFFFF#32) ∧
  decode 0x000000000000000D#64 = .instr (.out true .eax) ∧
  decode 0x0000000300000006#64 = .instr (.jnz false .eax 3#32) ∧
  decode 0x000000000000000F#64 = .illegal .reservedOpcode ∧
  decode 0x0000000080000000#64 = .illegal .reservedBits ∧
  decode 0x0000000100000005#64 = .illegal .unusedImm ∧
  decode 0x0000000000000085#64 = .illegal .unusedRb

/-- R39: a word's bytes are little-endian, bits 7:0 first, and so are an address's. That the words of a
program store are written one after another and read back as a list is the model's choice, since the spec
gives no file format (log entry 11). -/
def Obligations.SerialisedWordsReadBack : Prop :=
  (∀ ws : List IWord, wordsOfBytes (ws.flatMap bytesOfWord) = some ws) ∧
  (∀ w : IWord, (bytesOfWord w).head? = some (w.extractLsb' 0 8)) ∧
  (∀ a : Addr, numOfBytes (bytesOfAddr a) = a.toNat ∧ (bytesOfAddr a).length = 4)

/-! ### The assembler -/

/-- R75, R76: reading the canonical rendering of an instruction gives its label and its operation back,
for every label and target that is a name and every literal in range; operand-equal compares variant and
operands, not the label. -/
def Obligations.RenderReadsBack : Prop :=
  (∀ i : TextInstr, i.op.wf = true → (∀ name, i.label = some name → isName name = true) →
    readLine (tokens (render i)) = .parts ⟨i.label, i.op⟩) ∧
  (∀ i j : TextInstr, operandEqual i j = true ↔ i.op = j.op)

/-- R24: the label table of names: a bound name cannot be bound again; a new binding is found and
leaves the others; a name not bound has no address; `reset` clears all bindings. -/
def Obligations.LabelTableOperations : Prop :=
  ∀ (t : LabelTable) (name : Text) (a : Nat),
    (t.getAddress name ≠ none → t.addLabel name a = none) ∧
    (t.getAddress name = none → ∃ t', t.addLabel name a = some t' ∧ t'.getAddress name = some a ∧
      ∀ other, other ≠ name → t'.getAddress other = t.getAddress other) ∧
    LabelTable.reset.getAddress name = none

/-- R68, R97: in a translated program every label is bound to the address of the instruction that
carries it, below the program's length, and every carried label is bound there. -/
def Obligations.TranslatedLabelsBound : Prop :=
  ∀ (text : Text) (t : Translation), translate text = .ok t →
    (∀ name a, t.labels.getAddress name = some a →
      ∃ i, t.program[a]? = some i ∧ i.label = some name) ∧
    (∀ (a : Nat) (i : TextInstr) (name : Text), t.program[a]? = some i → i.label = some name →
      t.labels.getAddress name = some a)

/-- R59, R60: every instruction of a translated program has a literal in range or a target that is a
name, and no label is empty. -/
def Obligations.TranslatedOperandsInRange : Prop :=
  ∀ (text : Text) (t : Translation), translate text = .ok t →
    ∀ i ∈ t.program, i.op.wf = true ∧ ∀ name, i.label = some name → isName name = true

/-- R70: a program is refused at its first failing line, and a line that fails does so whatever
follows: the error is the one of that line and carries its number. The last of a line's checks, that its
attached label is not bound yet (R68), is made against what the lines before it bound. -/
def Obligations.FirstFailingLineStops : Prop :=
  ∀ (before : List Text) (ln : Text) (after : List Text) (t : Translation) (e : AsmError) (n : Nat)
    (start : Translation), translateLines n before start = .ok t →
    (tokens ln ≠ [] → readLine (tokens ln) = .error e →
      translateLines n (before ++ ln :: after) start = .error e (n + before.length)) ∧
    (∀ p, readLine (tokens ln) = .parts p → t.append p = none →
      translateLines n (before ++ ln :: after) start = .error .duplicateLabel (n + before.length)) ∧
    (∀ p, t.append p = none ↔ ∃ name a, p.label = some name ∧ t.labels.getAddress name = some a)

/-- R72: the ids are given to exactly the names the program binds or jumps to, each once. With more than
2^32 names, which R72 and the 32-bit ids of R13 leave open, the model's ids repeat (log entry 19). -/
def Obligations.LabelIdsDistinct : Prop :=
  ∀ p : List TextInstr,
    (labelNames p).Nodup ∧ (∀ name, name ∈ labelNames p ↔ ∃ i ∈ p, name ∈ namesOf i) ∧
    ((labelNames p).length ≤ 2 ^ 32 → ∀ x ∈ labelNames p, ∀ y ∈ labelNames p,
      labelId (labelNames p) x = labelId (labelNames p) y → x = y)

/-- R74: building an image fails with ProgramTooLong first, then TooManyLabels, and otherwise gives one
word for each instruction and one entry for each name: `V` = 1 with the bound address where the label table
binds the name, `V` = 0 with `ADDR` 0 where it does not, and for every id beyond the names. A bound address
below 2^32 is the entry's `ADDR` exactly. The clause for an address at or beyond 2^32, which is written modulo
2^32, is no part of R74: it is the model's choice (log entry 18). -/
def Obligations.ImageBuilding : Prop :=
  ∀ (p : Params) (t : Translation),
    (p.progMax < t.program.length → buildImage p t = .error .programTooLong) ∧
    (t.program.length ≤ p.progMax → p.labelSlots < (labelNames t.program).length →
      buildImage p t = .error .tooManyLabels) ∧
    (t.program.length ≤ p.progMax → (labelNames t.program).length ≤ p.labelSlots →
      ∃ img, buildImage p t = .ok img ∧ img.words.length = t.program.length ∧
        (∀ (a : Nat) (i : TextInstr), t.program[a]? = some i →
          img.words[a]? = some (encode (assemble (labelNames t.program) i))) ∧
        (∀ (id : Nat) (name : Text), (labelNames t.program)[id]? = some name →
          (∀ a, t.labels.getAddress name = some a →
            entryOf img id = ⟨true, BitVec.ofNat 32 a⟩ ∧
              (a < 2 ^ 32 → (entryOf img id).addr.toNat = a)) ∧
          (t.labels.getAddress name = none → entryOf img id = ⟨false, 0#32⟩)) ∧
        (∀ id, (labelNames t.program).length ≤ id → entryOf img id = ⟨false, 0#32⟩))

/-- R116, R74, R97: a host that loads the image of a translated program and starts it has a core in
RUN, at address 0 with every register 0, that holds the program: its words decode to the translated
instructions, its labels are those the translator bound, and none of them can raise IllegalInstruction
or BadTarget. -/
def Obligations.BootGivesAssembledProgram : Prop :=
  ∀ (text : Text) (t : Translation) (img : Image) (s : State), s.InRange → s.runState ≠ .run →
    translate text = .ok t → buildImage s.params t = .ok img →
    ∃ s', bootImage img s = some s' ∧ s'.runState = .run ∧ s'.pc = 0#32 ∧
      (∀ r, s'.getReg r = 0#32) ∧ s'.Assembled ∧ s'.Holds t

/-- R48: the two levels agree. A core that holds the image of a translated program makes, at every
step, exactly the step of the textual level, and goes on holding it. A program of 2^32 or more instructions is
held by no core (log entry 18). -/
def Obligations.BinaryLevelRefinesTextual : Prop :=
  ∀ (t : Translation) (s : State), s.Holds t →
    step s = .next (textStep t s) ∧ (textStep t s).Holds t
end

