-- ==== Sys2Proof/Laws/State.lean ====
section
/-! SUPPORT. One lemma per field per update of the state, so that no proof unfolds a record update. -/

namespace Sys2Proof.Machine

/-! ### `setReg` -/

@[simp] theorem State.setReg_regs (s : State) (r : Reg) (v : Word) :
    (s.setReg r v).regs = s.regs.set r v := rfl
@[simp] theorem State.setReg_pc (s : State) (r : Reg) (v : Word) :
    (s.setReg r v).pc = s.pc := rfl
@[simp] theorem State.setReg_hops (s : State) (r : Reg) (v : Word) :
    (s.setReg r v).hops = s.hops := rfl
@[simp] theorem State.setReg_prog (s : State) (r : Reg) (v : Word) :
    (s.setReg r v).prog = s.prog := rfl
@[simp] theorem State.setReg_progLen (s : State) (r : Reg) (v : Word) :
    (s.setReg r v).progLen = s.progLen := rfl
@[simp] theorem State.setReg_labels (s : State) (r : Reg) (v : Word) :
    (s.setReg r v).labels = s.labels := rfl
@[simp] theorem State.setReg_runState (s : State) (r : Reg) (v : Word) :
    (s.setReg r v).runState = s.runState := rfl
@[simp] theorem State.setReg_cause (s : State) (r : Reg) (v : Word) :
    (s.setReg r v).cause = s.cause := rfl
@[simp] theorem State.setReg_faultPc (s : State) (r : Reg) (v : Word) :
    (s.setReg r v).faultPc = s.faultPc := rfl
@[simp] theorem State.setReg_faultAddr (s : State) (r : Reg) (v : Word) :
    (s.setReg r v).faultAddr = s.faultAddr := rfl
@[simp] theorem State.setReg_output (s : State) (r : Reg) (v : Word) :
    (s.setReg r v).output = s.output := rfl
@[simp] theorem State.setReg_params (s : State) (r : Reg) (v : Word) :
    (s.setReg r v).params = s.params := rfl
@[simp] theorem State.setReg_powerOns (s : State) (r : Reg) (v : Word) :
    (s.setReg r v).powerOns = s.powerOns := rfl

/-! ### `clearRegs` -/

@[simp] theorem State.clearRegs_regs (s : State) :
    (s.clearRegs).regs = RegFile.zero := rfl
@[simp] theorem State.clearRegs_pc (s : State) :
    (s.clearRegs).pc = s.pc := rfl
@[simp] theorem State.clearRegs_hops (s : State) :
    (s.clearRegs).hops = s.hops := rfl
@[simp] theorem State.clearRegs_prog (s : State) :
    (s.clearRegs).prog = s.prog := rfl
@[simp] theorem State.clearRegs_progLen (s : State) :
    (s.clearRegs).progLen = s.progLen := rfl
@[simp] theorem State.clearRegs_labels (s : State) :
    (s.clearRegs).labels = s.labels := rfl
@[simp] theorem State.clearRegs_runState (s : State) :
    (s.clearRegs).runState = s.runState := rfl
@[simp] theorem State.clearRegs_cause (s : State) :
    (s.clearRegs).cause = s.cause := rfl
@[simp] theorem State.clearRegs_faultPc (s : State) :
    (s.clearRegs).faultPc = s.faultPc := rfl
@[simp] theorem State.clearRegs_faultAddr (s : State) :
    (s.clearRegs).faultAddr = s.faultAddr := rfl
@[simp] theorem State.clearRegs_output (s : State) :
    (s.clearRegs).output = s.output := rfl
@[simp] theorem State.clearRegs_params (s : State) :
    (s.clearRegs).params = s.params := rfl
@[simp] theorem State.clearRegs_powerOns (s : State) :
    (s.clearRegs).powerOns = s.powerOns := rfl

/-! ### `putWord` -/

@[simp] theorem State.putWord_regs (s : State) (a : Nat) (w : IWord) :
    (s.putWord a w).regs = s.regs := rfl
@[simp] theorem State.putWord_pc (s : State) (a : Nat) (w : IWord) :
    (s.putWord a w).pc = s.pc := rfl
@[simp] theorem State.putWord_hops (s : State) (a : Nat) (w : IWord) :
    (s.putWord a w).hops = s.hops := rfl
@[simp] theorem State.putWord_prog (s : State) (a : Nat) (w : IWord) :
    (s.putWord a w).prog = s.prog.put a w := rfl
@[simp] theorem State.putWord_progLen (s : State) (a : Nat) (w : IWord) :
    (s.putWord a w).progLen = s.progLen := rfl
@[simp] theorem State.putWord_labels (s : State) (a : Nat) (w : IWord) :
    (s.putWord a w).labels = s.labels := rfl
@[simp] theorem State.putWord_runState (s : State) (a : Nat) (w : IWord) :
    (s.putWord a w).runState = s.runState := rfl
@[simp] theorem State.putWord_cause (s : State) (a : Nat) (w : IWord) :
    (s.putWord a w).cause = s.cause := rfl
@[simp] theorem State.putWord_faultPc (s : State) (a : Nat) (w : IWord) :
    (s.putWord a w).faultPc = s.faultPc := rfl
@[simp] theorem State.putWord_faultAddr (s : State) (a : Nat) (w : IWord) :
    (s.putWord a w).faultAddr = s.faultAddr := rfl
@[simp] theorem State.putWord_output (s : State) (a : Nat) (w : IWord) :
    (s.putWord a w).output = s.output := rfl
@[simp] theorem State.putWord_params (s : State) (a : Nat) (w : IWord) :
    (s.putWord a w).params = s.params := rfl
@[simp] theorem State.putWord_powerOns (s : State) (a : Nat) (w : IWord) :
    (s.putWord a w).powerOns = s.powerOns := rfl

/-! ### `putLabel` -/

@[simp] theorem State.putLabel_regs (s : State) (id : Nat) (e : LabelEntry) :
    (s.putLabel id e).regs = s.regs := rfl
@[simp] theorem State.putLabel_pc (s : State) (id : Nat) (e : LabelEntry) :
    (s.putLabel id e).pc = s.pc := rfl
@[simp] theorem State.putLabel_hops (s : State) (id : Nat) (e : LabelEntry) :
    (s.putLabel id e).hops = s.hops := rfl
@[simp] theorem State.putLabel_prog (s : State) (id : Nat) (e : LabelEntry) :
    (s.putLabel id e).prog = s.prog := rfl
@[simp] theorem State.putLabel_progLen (s : State) (id : Nat) (e : LabelEntry) :
    (s.putLabel id e).progLen = s.progLen := rfl
@[simp] theorem State.putLabel_labels (s : State) (id : Nat) (e : LabelEntry) :
    (s.putLabel id e).labels = if e.v then s.labels.put id e.addr else s.labels.erase id := rfl
@[simp] theorem State.putLabel_runState (s : State) (id : Nat) (e : LabelEntry) :
    (s.putLabel id e).runState = s.runState := rfl
@[simp] theorem State.putLabel_cause (s : State) (id : Nat) (e : LabelEntry) :
    (s.putLabel id e).cause = s.cause := rfl
@[simp] theorem State.putLabel_faultPc (s : State) (id : Nat) (e : LabelEntry) :
    (s.putLabel id e).faultPc = s.faultPc := rfl
@[simp] theorem State.putLabel_faultAddr (s : State) (id : Nat) (e : LabelEntry) :
    (s.putLabel id e).faultAddr = s.faultAddr := rfl
@[simp] theorem State.putLabel_output (s : State) (id : Nat) (e : LabelEntry) :
    (s.putLabel id e).output = s.output := rfl
@[simp] theorem State.putLabel_params (s : State) (id : Nat) (e : LabelEntry) :
    (s.putLabel id e).params = s.params := rfl
@[simp] theorem State.putLabel_powerOns (s : State) (id : Nat) (e : LabelEntry) :
    (s.putLabel id e).powerOns = s.powerOns := rfl

/-! ### `emit` -/

@[simp] theorem State.emit_regs (s : State) (r : Reg) (v : Word) :
    (s.emit r v).regs = s.regs := rfl
@[simp] theorem State.emit_pc (s : State) (r : Reg) (v : Word) :
    (s.emit r v).pc = s.pc := rfl
@[simp] theorem State.emit_hops (s : State) (r : Reg) (v : Word) :
    (s.emit r v).hops = s.hops := rfl
@[simp] theorem State.emit_prog (s : State) (r : Reg) (v : Word) :
    (s.emit r v).prog = s.prog := rfl
@[simp] theorem State.emit_progLen (s : State) (r : Reg) (v : Word) :
    (s.emit r v).progLen = s.progLen := rfl
@[simp] theorem State.emit_labels (s : State) (r : Reg) (v : Word) :
    (s.emit r v).labels = s.labels := rfl
@[simp] theorem State.emit_runState (s : State) (r : Reg) (v : Word) :
    (s.emit r v).runState = s.runState := rfl
@[simp] theorem State.emit_cause (s : State) (r : Reg) (v : Word) :
    (s.emit r v).cause = s.cause := rfl
@[simp] theorem State.emit_faultPc (s : State) (r : Reg) (v : Word) :
    (s.emit r v).faultPc = s.faultPc := rfl
@[simp] theorem State.emit_faultAddr (s : State) (r : Reg) (v : Word) :
    (s.emit r v).faultAddr = s.faultAddr := rfl
@[simp] theorem State.emit_output (s : State) (r : Reg) (v : Word) :
    (s.emit r v).output = s.output ++ [⟨r, v⟩] := rfl
@[simp] theorem State.emit_params (s : State) (r : Reg) (v : Word) :
    (s.emit r v).params = s.params := rfl
@[simp] theorem State.emit_powerOns (s : State) (r : Reg) (v : Word) :
    (s.emit r v).powerOns = s.powerOns := rfl

/-! ### `clearHops` -/

@[simp] theorem State.clearHops_regs (s : State) :
    (s.clearHops).regs = s.regs := rfl
@[simp] theorem State.clearHops_pc (s : State) :
    (s.clearHops).pc = s.pc := rfl
@[simp] theorem State.clearHops_hops (s : State) :
    (s.clearHops).hops = 0 := rfl
@[simp] theorem State.clearHops_prog (s : State) :
    (s.clearHops).prog = s.prog := rfl
@[simp] theorem State.clearHops_progLen (s : State) :
    (s.clearHops).progLen = s.progLen := rfl
@[simp] theorem State.clearHops_labels (s : State) :
    (s.clearHops).labels = s.labels := rfl
@[simp] theorem State.clearHops_runState (s : State) :
    (s.clearHops).runState = s.runState := rfl
@[simp] theorem State.clearHops_cause (s : State) :
    (s.clearHops).cause = s.cause := rfl
@[simp] theorem State.clearHops_faultPc (s : State) :
    (s.clearHops).faultPc = s.faultPc := rfl
@[simp] theorem State.clearHops_faultAddr (s : State) :
    (s.clearHops).faultAddr = s.faultAddr := rfl
@[simp] theorem State.clearHops_output (s : State) :
    (s.clearHops).output = s.output := rfl
@[simp] theorem State.clearHops_params (s : State) :
    (s.clearHops).params = s.params := rfl
@[simp] theorem State.clearHops_powerOns (s : State) :
    (s.clearHops).powerOns = s.powerOns := rfl

/-! ### `countHop` -/

@[simp] theorem State.countHop_regs (s : State) :
    (s.countHop).regs = s.regs := rfl
@[simp] theorem State.countHop_pc (s : State) :
    (s.countHop).pc = s.pc := rfl
@[simp] theorem State.countHop_hops (s : State) :
    (s.countHop).hops = s.hops + 1 := rfl
@[simp] theorem State.countHop_prog (s : State) :
    (s.countHop).prog = s.prog := rfl
@[simp] theorem State.countHop_progLen (s : State) :
    (s.countHop).progLen = s.progLen := rfl
@[simp] theorem State.countHop_labels (s : State) :
    (s.countHop).labels = s.labels := rfl
@[simp] theorem State.countHop_runState (s : State) :
    (s.countHop).runState = s.runState := rfl
@[simp] theorem State.countHop_cause (s : State) :
    (s.countHop).cause = s.cause := rfl
@[simp] theorem State.countHop_faultPc (s : State) :
    (s.countHop).faultPc = s.faultPc := rfl
@[simp] theorem State.countHop_faultAddr (s : State) :
    (s.countHop).faultAddr = s.faultAddr := rfl
@[simp] theorem State.countHop_output (s : State) :
    (s.countHop).output = s.output := rfl
@[simp] theorem State.countHop_params (s : State) :
    (s.countHop).params = s.params := rfl
@[simp] theorem State.countHop_powerOns (s : State) :
    (s.countHop).powerOns = s.powerOns := rfl

/-! ### `advance` -/

@[simp] theorem State.advance_regs (s : State) :
    (s.advance).regs = s.regs := rfl
@[simp] theorem State.advance_pc (s : State) :
    (s.advance).pc = s.pc + 1#32 := rfl
@[simp] theorem State.advance_hops (s : State) :
    (s.advance).hops = s.hops := rfl
@[simp] theorem State.advance_prog (s : State) :
    (s.advance).prog = s.prog := rfl
@[simp] theorem State.advance_progLen (s : State) :
    (s.advance).progLen = s.progLen := rfl
@[simp] theorem State.advance_labels (s : State) :
    (s.advance).labels = s.labels := rfl
@[simp] theorem State.advance_runState (s : State) :
    (s.advance).runState = s.runState := rfl
@[simp] theorem State.advance_cause (s : State) :
    (s.advance).cause = s.cause := rfl
@[simp] theorem State.advance_faultPc (s : State) :
    (s.advance).faultPc = s.faultPc := rfl
@[simp] theorem State.advance_faultAddr (s : State) :
    (s.advance).faultAddr = s.faultAddr := rfl
@[simp] theorem State.advance_output (s : State) :
    (s.advance).output = s.output := rfl
@[simp] theorem State.advance_params (s : State) :
    (s.advance).params = s.params := rfl
@[simp] theorem State.advance_powerOns (s : State) :
    (s.advance).powerOns = s.powerOns := rfl

/-! ### `enterFault` -/

@[simp] theorem State.enterFault_regs (s : State) (c : RunFault) (q : Addr) :
    (s.enterFault c q).regs = s.regs := rfl
@[simp] theorem State.enterFault_pc (s : State) (c : RunFault) (q : Addr) :
    (s.enterFault c q).pc = s.pc := rfl
@[simp] theorem State.enterFault_hops (s : State) (c : RunFault) (q : Addr) :
    (s.enterFault c q).hops = s.hops := rfl
@[simp] theorem State.enterFault_prog (s : State) (c : RunFault) (q : Addr) :
    (s.enterFault c q).prog = s.prog := rfl
@[simp] theorem State.enterFault_progLen (s : State) (c : RunFault) (q : Addr) :
    (s.enterFault c q).progLen = s.progLen := rfl
@[simp] theorem State.enterFault_labels (s : State) (c : RunFault) (q : Addr) :
    (s.enterFault c q).labels = s.labels := rfl
@[simp] theorem State.enterFault_runState (s : State) (c : RunFault) (q : Addr) :
    (s.enterFault c q).runState = .fault := rfl
@[simp] theorem State.enterFault_cause (s : State) (c : RunFault) (q : Addr) :
    (s.enterFault c q).cause = some c := rfl
@[simp] theorem State.enterFault_faultPc (s : State) (c : RunFault) (q : Addr) :
    (s.enterFault c q).faultPc = s.pc := rfl
@[simp] theorem State.enterFault_faultAddr (s : State) (c : RunFault) (q : Addr) :
    (s.enterFault c q).faultAddr = q := rfl
@[simp] theorem State.enterFault_output (s : State) (c : RunFault) (q : Addr) :
    (s.enterFault c q).output = s.output := rfl
@[simp] theorem State.enterFault_params (s : State) (c : RunFault) (q : Addr) :
    (s.enterFault c q).params = s.params := rfl
@[simp] theorem State.enterFault_powerOns (s : State) (c : RunFault) (q : Addr) :
    (s.enterFault c q).powerOns = s.powerOns := rfl

/-! ### `startRun` -/

@[simp] theorem State.startRun_regs (s : State) :
    (s.startRun).regs = RegFile.zero := rfl
@[simp] theorem State.startRun_pc (s : State) :
    (s.startRun).pc = 0#32 := rfl
@[simp] theorem State.startRun_hops (s : State) :
    (s.startRun).hops = 0 := rfl
@[simp] theorem State.startRun_prog (s : State) :
    (s.startRun).prog = s.prog := rfl
@[simp] theorem State.startRun_progLen (s : State) :
    (s.startRun).progLen = s.progLen := rfl
@[simp] theorem State.startRun_labels (s : State) :
    (s.startRun).labels = s.labels := rfl
@[simp] theorem State.startRun_runState (s : State) :
    (s.startRun).runState = .run := rfl
@[simp] theorem State.startRun_cause (s : State) :
    (s.startRun).cause = none := rfl
@[simp] theorem State.startRun_faultPc (s : State) :
    (s.startRun).faultPc = 0#32 := rfl
@[simp] theorem State.startRun_faultAddr (s : State) :
    (s.startRun).faultAddr = 0#32 := rfl
@[simp] theorem State.startRun_output (s : State) :
    (s.startRun).output = s.output := rfl
@[simp] theorem State.startRun_params (s : State) :
    (s.startRun).params = s.params := rfl
@[simp] theorem State.startRun_powerOns (s : State) :
    (s.startRun).powerOns = s.powerOns := rfl

/-! ### `powerOn` -/

@[simp] theorem State.powerOn_regs (s : State) :
    (s.powerOn).regs = RegFile.zero := rfl
@[simp] theorem State.powerOn_pc (s : State) :
    (s.powerOn).pc = 0#32 := rfl
@[simp] theorem State.powerOn_hops (s : State) :
    (s.powerOn).hops = 0 := rfl
@[simp] theorem State.powerOn_prog (s : State) :
    (s.powerOn).prog = [] := rfl
@[simp] theorem State.powerOn_progLen (s : State) :
    (s.powerOn).progLen = 0#32 := rfl
@[simp] theorem State.powerOn_labels (s : State) :
    (s.powerOn).labels = [] := rfl
@[simp] theorem State.powerOn_runState (s : State) :
    (s.powerOn).runState = .idle := rfl
@[simp] theorem State.powerOn_cause (s : State) :
    (s.powerOn).cause = none := rfl
@[simp] theorem State.powerOn_faultPc (s : State) :
    (s.powerOn).faultPc = 0#32 := rfl
@[simp] theorem State.powerOn_faultAddr (s : State) :
    (s.powerOn).faultAddr = 0#32 := rfl
@[simp] theorem State.powerOn_output (s : State) :
    (s.powerOn).output = s.output := rfl
@[simp] theorem State.powerOn_params (s : State) :
    (s.powerOn).params = s.params := rfl
@[simp] theorem State.powerOn_powerOns (s : State) :
    (s.powerOn).powerOns = s.powerOns + 1 := rfl

/-! ### `endRun` -/

@[simp] theorem State.endRun_regs (s : State) :
    (s.endRun).regs = s.regs := rfl
@[simp] theorem State.endRun_pc (s : State) :
    (s.endRun).pc = s.pc := rfl
@[simp] theorem State.endRun_hops (s : State) :
    (s.endRun).hops = s.hops := rfl
@[simp] theorem State.endRun_prog (s : State) :
    (s.endRun).prog = s.prog := rfl
@[simp] theorem State.endRun_progLen (s : State) :
    (s.endRun).progLen = s.progLen := rfl
@[simp] theorem State.endRun_labels (s : State) :
    (s.endRun).labels = s.labels := rfl
@[simp] theorem State.endRun_runState (s : State) :
    (s.endRun).runState = .done := rfl
@[simp] theorem State.endRun_cause (s : State) :
    (s.endRun).cause = s.cause := rfl
@[simp] theorem State.endRun_faultPc (s : State) :
    (s.endRun).faultPc = s.faultPc := rfl
@[simp] theorem State.endRun_faultAddr (s : State) :
    (s.endRun).faultAddr = s.faultAddr := rfl
@[simp] theorem State.endRun_output (s : State) :
    (s.endRun).output = s.output := rfl
@[simp] theorem State.endRun_params (s : State) :
    (s.endRun).params = s.params := rfl
@[simp] theorem State.endRun_powerOns (s : State) :
    (s.endRun).powerOns = s.powerOns := rfl

/-! ### `resetFor` -/

@[simp] theorem State.resetFor_regs (p : Params) (n : Nat) :
    (State.resetFor p n).regs = RegFile.zero := rfl
@[simp] theorem State.resetFor_pc (p : Params) (n : Nat) :
    (State.resetFor p n).pc = 0#32 := rfl
@[simp] theorem State.resetFor_hops (p : Params) (n : Nat) :
    (State.resetFor p n).hops = 0 := rfl
@[simp] theorem State.resetFor_prog (p : Params) (n : Nat) :
    (State.resetFor p n).prog = [] := rfl
@[simp] theorem State.resetFor_progLen (p : Params) (n : Nat) :
    (State.resetFor p n).progLen = 0#32 := rfl
@[simp] theorem State.resetFor_labels (p : Params) (n : Nat) :
    (State.resetFor p n).labels = [] := rfl
@[simp] theorem State.resetFor_runState (p : Params) (n : Nat) :
    (State.resetFor p n).runState = .idle := rfl
@[simp] theorem State.resetFor_cause (p : Params) (n : Nat) :
    (State.resetFor p n).cause = none := rfl
@[simp] theorem State.resetFor_faultPc (p : Params) (n : Nat) :
    (State.resetFor p n).faultPc = 0#32 := rfl
@[simp] theorem State.resetFor_faultAddr (p : Params) (n : Nat) :
    (State.resetFor p n).faultAddr = 0#32 := rfl
@[simp] theorem State.resetFor_output (p : Params) (n : Nat) :
    (State.resetFor p n).output = [] := rfl
@[simp] theorem State.resetFor_params (p : Params) (n : Nat) :
    (State.resetFor p n).params = p := rfl
@[simp] theorem State.resetFor_powerOns (p : Params) (n : Nat) :
    (State.resetFor p n).powerOns = n := rfl

/-! ### `retire`: the pc and `HOPS` only -/

@[simp] theorem State.retire_regs (s : State) : s.retire.regs = s.regs := by
  unfold State.retire; split <;> rfl
@[simp] theorem State.retire_hops (s : State) : s.retire.hops = 0 := by
  unfold State.retire; split <;> rfl
@[simp] theorem State.retire_prog (s : State) : s.retire.prog = s.prog := by
  unfold State.retire; split <;> rfl
@[simp] theorem State.retire_progLen (s : State) : s.retire.progLen = s.progLen := by
  unfold State.retire; split <;> rfl
@[simp] theorem State.retire_labels (s : State) : s.retire.labels = s.labels := by
  unfold State.retire; split <;> rfl
@[simp] theorem State.retire_runState (s : State) : s.retire.runState = s.runState := by
  unfold State.retire; split <;> rfl
@[simp] theorem State.retire_cause (s : State) : s.retire.cause = s.cause := by
  unfold State.retire; split <;> rfl
@[simp] theorem State.retire_faultPc (s : State) : s.retire.faultPc = s.faultPc := by
  unfold State.retire; split <;> rfl
@[simp] theorem State.retire_faultAddr (s : State) : s.retire.faultAddr = s.faultAddr := by
  unfold State.retire; split <;> rfl
@[simp] theorem State.retire_output (s : State) : s.retire.output = s.output := by
  unfold State.retire; split <;> rfl
@[simp] theorem State.retire_params (s : State) : s.retire.params = s.params := by
  unfold State.retire; split <;> rfl
@[simp] theorem State.retire_powerOns (s : State) : s.retire.powerOns = s.powerOns := by
  unfold State.retire; split <;> rfl
theorem State.retire_pc (s : State) :
    s.retire.pc = if s.runState = .run then s.pc + 1#32 else s.pc := by
  unfold State.retire; split <;> rfl

/-! ### Operand forms, over the updates above -/

@[simp] theorem State.writeRI_eq (ra : Reg) (imm : Word) (s : State) :
    s.writeRI ra imm = s.setReg ra imm := rfl
@[simp] theorem State.sendR_eq (ra : Reg) (s : State) :
    s.sendR ra = s.emit ra (s.getReg ra) := rfl
@[simp] theorem State.writeRR_eq (f : Word → Word → Word) (ra rb : Reg) (s : State) :
    s.writeRR f ra rb = s.setReg ra (f (s.getReg ra) (s.getReg rb)) := rfl

/-! ### Registers -/

@[simp] theorem RegFile.get_set_same (f : RegFile) (r : Reg) (v : Word) : (f.set r v).get r = v := by
  cases r <;> rfl
theorem RegFile.get_set_ne (f : RegFile) {r r' : Reg} (v : Word) (h : r' ≠ r) :
    (f.set r v).get r' = f.get r' := by
  cases r <;> cases r' <;> first | rfl | exact absurd rfl h
@[simp] theorem RegFile.get_zero (r : Reg) : RegFile.zero.get r = 0#32 := by
  cases r <;> rfl
/-- Two register files with the same eight values are the same. -/
theorem RegFile.ext_get {f g : RegFile} (h : ∀ r, f.get r = g.get r) : f = g := by
  have h0 := h .eax; have h1 := h .ebx; have h2 := h .ecx; have h3 := h .edx
  have h4 := h .esp; have h5 := h .ebp; have h6 := h .esi; have h7 := h .edi
  cases f; cases g
  simp only [RegFile.get] at h0 h1 h2 h3 h4 h5 h6 h7
  simp only [h0, h1, h2, h3, h4, h5, h6, h7]
@[simp] theorem State.getReg_setReg_same (s : State) (r : Reg) (v : Word) :
    (s.setReg r v).getReg r = v := RegFile.get_set_same s.regs r v
theorem State.getReg_setReg_ne (s : State) {r r' : Reg} (v : Word) (h : r' ≠ r) :
    (s.setReg r v).getReg r' = s.getReg r' := RegFile.get_set_ne s.regs v h
/-- A read of a register depends on the register file alone. -/
theorem State.getReg_congr {s t : State} (h : s.regs = t.regs) (r : Reg) : s.getReg r = t.getReg r := by
  unfold State.getReg; rw [h]

end Sys2Proof.Machine
end

