-- ==== Sys2Proof/Laws/Control.lean ====
section
/-! SUPPORT. What executing an instruction can do, once for all: `jnz`'s decision, nested execution
and chains, and the step. -/

namespace Sys2Proof.Machine

/-- `s` with `k` more hops counted, all else as in `s`. -/
def State.addHops (s : State) (k : Nat) : State := { s with hops := s.hops + k }

@[simp] theorem State.addHops_zero (s : State) : s.addHops 0 = s := rfl
@[simp] theorem State.addHops_one (s : State) : s.addHops 1 = s.countHop := rfl
theorem State.countHop_addHops (s : State) (k : Nat) : s.countHop.addHops k = s.addHops (k + 1) := by
  simp only [State.addHops, State.countHop]
  congr 1
  omega

theorem jumpTaken_iff (v : Word) : jumpTaken v = true ↔ v ≠ 0#32 := by
  rw [jumpTaken, decide_eq_true_iff, Ne, Ne, ← BitVec.toInt_inj]
  exact Iff.rfl

theorem divFaults_iff (a b : Word) : divFaults a b = true ↔ a = 0#32 ∨ b = 0#32 := by
  rw [divFaults, Bool.or_eq_true, decide_eq_true_iff, decide_eq_true_iff, ← BitVec.toInt_inj (y := 0#32),
    ← BitVec.toInt_inj (x := b) (y := 0#32)]
  exact Iff.rfl

/-- A `jnz` that is not taken: its register is 0, and nothing is looked up. -/
theorem jnzHop_notTaken {ra : Reg} {t : LabelId} {a : Addr} {s : State} :
    jnzHop ra t a s = .notTaken ↔ s.getReg ra = 0#32 := by
  unfold jnzHop
  by_cases h : jumpTaken (s.getReg ra) = true
  · have hne := (jumpTaken_iff _).1 h
    simp only [h, if_true, hne, iff_false]
    repeat' split
    all_goals exact fun h => by cases h
  · have hz := not_not.1 (fun hne => h ((jumpTaken_iff _).2 hne))
    rw [if_neg h]
    exact iff_of_true rfl hz

/-- What entering a target means. -/
theorem jnzHop_enters {ra : Reg} {t : LabelId} {a : Addr} {s s' : State} {d : Addr} {j : Instr} :
    jnzHop ra t a s = .enters d j s' ↔
      s.getReg ra ≠ 0#32 ∧ s.labelLookup t = some d ∧ d < s.progLen ∧ s.hops < s.progLen.toNat ∧
        s.instrAt d = .instr j ∧ s' = s.countHop := by
  unfold jnzHop
  by_cases h : jumpTaken (s.getReg ra) = true
  · have hne := (jumpTaken_iff _).1 h
    simp only [h, if_true]
    cases hl : s.labelLookup t with
    | none => simp
    | some e =>
      by_cases hb : s.progLen ≤ e
      · simp only [hb, if_true]
        constructor
        · intro h; cases h
        · rintro ⟨-, he, hd, -⟩
          cases he
          exact absurd hd (BitVec.not_lt.2 hb)
      · simp only [hb, if_false]
        by_cases hc : s.progLen.toNat < s.countHop.hops
        · simp only [hc, if_true]
          constructor
          · intro h; cases h
          · rintro ⟨-, -, -, hh, -⟩
            simp only [State.countHop_hops] at hc
            omega
        · simp only [hc, if_false]
          simp only [State.countHop_hops] at hc
          cases hi : s.instrAt e with
          | illegal w =>
            constructor
            · intro h; cases h
            · rintro ⟨-, he, -, -, hj, -⟩
              cases he; rw [hi] at hj; cases hj
          | instr i =>
            constructor
            · intro h; cases h
              exact ⟨hne, rfl, BitVec.not_le.1 hb, by omega, hi, rfl⟩
            · rintro ⟨-, he, -, -, hj, rfl⟩
              cases he; rw [hi] at hj; cases hj; rfl
  · have hz := not_not.1 (fun hne => h ((jumpTaken_iff _).2 hne))
    rw [if_neg h]
    exact iff_of_false (fun h => by cases h) (fun h => h.1 hz)

/-- What a raise of one `jnz` means: the four checks in their order. -/
theorem jnzHop_raises {ra : Reg} {t : LabelId} {a : Addr} {s s' : State} {c : RunFault} {q : Addr}
    (h : jnzHop ra t a s = .raises c q s') :
    s.getReg ra ≠ 0#32 ∧
      ((c = .undefinedLabel ∧ q = a ∧ s' = s ∧ s.labelLookup t = none) ∨
        ∃ d, s.labelLookup t = some d ∧
          ((c = .badTarget ∧ q = a ∧ s' = s ∧ s.progLen ≤ d) ∨
            (d < s.progLen ∧
              ((c = .jumpCycle ∧ q = a ∧ s' = s.countHop ∧ s.progLen.toNat ≤ s.hops) ∨
                (c = .illegalInstruction ∧ q = d ∧ s' = s.countHop ∧ s.hops < s.progLen.toNat ∧
                  ∃ w, s.instrAt d = .illegal w))))) := by
  unfold jnzHop at h
  split at h
  · rename_i ht
    refine ⟨(jumpTaken_iff _).1 ht, ?_⟩
    split at h
    · cases h; exact Or.inl ⟨rfl, rfl, rfl, by assumption⟩
    · rename_i d hl
      refine Or.inr ⟨d, hl, ?_⟩
      split at h
      · cases h; exact Or.inl ⟨rfl, rfl, rfl, by assumption⟩
      · rename_i hb
        refine Or.inr ⟨BitVec.not_le.1 hb, ?_⟩
        split at h
        · rename_i hc
          cases h
          exact Or.inl ⟨rfl, rfl, rfl, by simpa [Nat.lt_succ_iff] using hc⟩
        · rename_i hc
          split at h
          · rename_i w hw
            cases h
            exact Or.inr ⟨rfl, rfl, rfl, by simpa [Nat.lt_succ_iff] using hc, w, hw⟩
          · cases h
  · cases h

/-- A raise of one `jnz` has changed nothing but the hop count. -/
theorem jnzHop_raises_state {ra : Reg} {t : LabelId} {a : Addr} {s s' : State} {c : RunFault} {q : Addr}
    (h : jnzHop ra t a s = .raises c q s') : ∃ k, s' = s.addHops k := by
  obtain ⟨-, ⟨-, -, hs, -⟩ | ⟨d, -, ⟨-, -, hs, -⟩ | ⟨-, ⟨-, -, hs, -⟩ | ⟨-, -, hs, -⟩⟩⟩⟩ := jnzHop_raises h
  · exact ⟨0, hs⟩
  · exact ⟨0, hs⟩
  · exact ⟨1, hs⟩
  · exact ⟨1, hs⟩

/-- Everything an execution that completes can have done: hops counted, then at most one register
written or one record sent. -/
theorem execAt_done {n : Nat} {i : Instr} {a : Addr} {s t : State} (h : execAt n i a s = .done t) :
    ∃ k, t = s.addHops k ∨ (∃ ra v, t = (s.addHops k).setReg ra v) ∨
      (∃ ra, t = (s.addHops k).emit ra (s.getReg ra)) := by
  induction n generalizing i a s with
  | zero =>
    cases i with
    | jnz l ra lab =>
      rw [execAt] at h
      split at h
      · cases h; exact ⟨0, Or.inl rfl⟩
      · cases h
      · cases h
    | add l ra rb => cases h; exact ⟨0, Or.inr (Or.inl ⟨_, _, rfl⟩)⟩
    | sub l ra rb => cases h; exact ⟨0, Or.inr (Or.inl ⟨_, _, rfl⟩)⟩
    | mul l ra rb => cases h; exact ⟨0, Or.inr (Or.inl ⟨_, _, rfl⟩)⟩
    | mov l ra imm => cases h; exact ⟨0, Or.inr (Or.inl ⟨_, _, rfl⟩)⟩
    | out l ra => cases h; exact ⟨0, Or.inr (Or.inr ⟨_, rfl⟩)⟩
    | div l ra rb =>
      rw [execAt, divEffect] at h
      split at h
      · cases h
      · cases h; exact ⟨0, Or.inr (Or.inl ⟨_, _, rfl⟩)⟩
  | succ n ih =>
    cases i with
    | jnz l ra lab =>
      rw [execAt] at h
      split at h
      · cases h; exact ⟨0, Or.inl rfl⟩
      · cases h
      · rename_i d j s' he
        obtain ⟨-, -, -, -, -, rfl⟩ := jnzHop_enters.1 he
        obtain ⟨k, hk⟩ := ih h
        rw [State.countHop_addHops] at hk
        exact ⟨k + 1, hk⟩
    | add l ra rb => cases h; exact ⟨0, Or.inr (Or.inl ⟨_, _, rfl⟩)⟩
    | sub l ra rb => cases h; exact ⟨0, Or.inr (Or.inl ⟨_, _, rfl⟩)⟩
    | mul l ra rb => cases h; exact ⟨0, Or.inr (Or.inl ⟨_, _, rfl⟩)⟩
    | mov l ra imm => cases h; exact ⟨0, Or.inr (Or.inl ⟨_, _, rfl⟩)⟩
    | out l ra => cases h; exact ⟨0, Or.inr (Or.inr ⟨_, rfl⟩)⟩
    | div l ra rb =>
      rw [execAt, divEffect] at h
      split at h
      · cases h
      · cases h; exact ⟨0, Or.inr (Or.inl ⟨_, _, rfl⟩)⟩

/-- An execution that raises has changed nothing but the hop count. -/
theorem execAt_raised {n : Nat} {i : Instr} {a : Addr} {s t : State} {c : RunFault} {q : Addr}
    (h : execAt n i a s = .raised c q t) : ∃ k, t = s.addHops k := by
  induction n generalizing i a s with
  | zero =>
    cases i with
    | jnz l ra lab =>
      rw [execAt] at h
      split at h
      · cases h
      · rename_i hr; cases h; exact jnzHop_raises_state hr
      · rename_i he; cases h
        obtain ⟨-, -, -, -, -, rfl⟩ := jnzHop_enters.1 he
        exact ⟨1, rfl⟩
    | div l ra rb =>
      rw [execAt, divEffect] at h
      split at h
      · cases h; exact ⟨0, rfl⟩
      · cases h
    | add l ra rb => cases h
    | sub l ra rb => cases h
    | mul l ra rb => cases h
    | mov l ra imm => cases h
    | out l ra => cases h
  | succ n ih =>
    cases i with
    | jnz l ra lab =>
      rw [execAt] at h
      split at h
      · cases h
      · rename_i hr; cases h; exact jnzHop_raises_state hr
      · rename_i he
        obtain ⟨-, -, -, -, -, rfl⟩ := jnzHop_enters.1 he
        obtain ⟨k, hk⟩ := ih h
        rw [State.countHop_addHops] at hk
        exact ⟨k + 1, hk⟩
    | div l ra rb =>
      rw [execAt, divEffect] at h
      split at h
      · cases h; exact ⟨0, rfl⟩
      · cases h
    | add l ra rb => cases h
    | sub l ra rb => cases h
    | mul l ra rb => cases h
    | mov l ra imm => cases h
    | out l ra => cases h

/-- Room for `PROG_LEN` targets less those entered is enough: more makes no difference, so the bound
of `execAt` is never what stops a chain (42_control_transfer.md R96). -/
theorem execAt_room {n m : Nat} {i : Instr} {a : Addr} {s : State}
    (hn : s.progLen.toNat ≤ s.hops + n) (hm : s.progLen.toNat ≤ s.hops + m) :
    execAt n i a s = execAt m i a s := by
  induction n generalizing m i a s with
  | zero =>
    cases i with
    | jnz l ra lab =>
      rw [execAt, execAt]
      cases he : jnzHop ra lab a s with
      | notTaken => rfl
      | raises c q s' => rfl
      | enters d j s' =>
        obtain ⟨-, -, -, hh, -⟩ := jnzHop_enters.1 he
        omega
    | _ => cases m <;> rfl
  | succ n ih =>
    cases i with
    | jnz l ra lab =>
      rw [execAt, execAt]
      cases he : jnzHop ra lab a s with
      | notTaken => rfl
      | raises c q s' => rfl
      | enters d j s' =>
        obtain ⟨-, -, -, hh, -, rfl⟩ := jnzHop_enters.1 he
        cases m with
        | zero => omega
        | succ m =>
          exact ih (by simp only [State.countHop_progLen, State.countHop_hops]; omega)
            (by simp only [State.countHop_progLen, State.countHop_hops]; omega)
    | _ => cases m <;> rfl

/-- Every meaning is `Exec` at `pc`, its raise taken as a fault. -/
theorem exec_eq_settle (i : Instr) (s : State) : exec i s = settle (execAt s.progLen.toNat i s.pc s) := by
  cases i with
  | jnz l ra lab => rfl
  | _ => cases hn : s.progLen.toNat <;> rfl

/-- An instruction always answers a next state: it completes, or its fault is taken. -/
theorem exec_cases (i : Instr) (s : State) :
    (∃ t, execAt s.progLen.toNat i s.pc s = .done t ∧ exec i s = .next t) ∨
      (∃ c q t, execAt s.progLen.toNat i s.pc s = .raised c q t ∧ exec i s = .next (t.enterFault c q)) := by
  rw [exec_eq_settle]
  cases h : execAt s.progLen.toNat i s.pc s with
  | done t => exact Or.inl ⟨t, rfl, rfl⟩
  | raised c q t => exact Or.inr ⟨c, q, t, rfl, rfl⟩

/-- Everything a step can do. -/
theorem step_cases {s t : State} (h : step s = .next t) :
    (s.runState ≠ .run ∧ t = s) ∨
      (s.runState = .run ∧ s.progLen ≤ s.pc ∧ t = s.endRun) ∨
      (s.runState = .run ∧ s.pc < s.progLen ∧ (∃ w, s.instrAt s.pc = .illegal w) ∧
        t = s.enterFault .illegalInstruction s.pc) ∨
      (s.runState = .run ∧ s.pc < s.progLen ∧ (∃ i, s.instrAt s.pc = .instr i ∧ labelled i = true) ∧
        t = s.advance) ∨
      (s.runState = .run ∧ s.pc < s.progLen ∧
        ∃ i u, s.instrAt s.pc = .instr i ∧ labelled i = false ∧ exec i s.clearHops = .next u ∧
          t = u.retire) := by
  unfold step front at h
  by_cases hr : s.runState = .run
  · simp only [hr, if_true] at h
    by_cases hp : s.progLen ≤ s.pc
    · simp only [hp, if_true] at h
      cases h
      exact Or.inr (Or.inl ⟨hr, hp, rfl⟩)
    · have hlt := BitVec.not_le.1 hp
      simp only [hp, if_false] at h
      cases hi : s.instrAt s.pc with
      | illegal w =>
        simp only [hi] at h
        cases h
        exact Or.inr (Or.inr (Or.inl ⟨hr, hlt, ⟨w, rfl⟩, rfl⟩))
      | instr i =>
        simp only [hi] at h
        cases hl : labelled i with
        | true =>
          simp only [hl, if_true] at h
          cases h
          exact Or.inr (Or.inr (Or.inr (Or.inl ⟨hr, hlt, ⟨i, rfl, hl⟩, rfl⟩)))
        | false =>
          simp only [hl, Bool.false_eq_true, if_false] at h
          cases he : exec i s.clearHops with
          | next u =>
            simp only [he] at h
            cases h
            exact Or.inr (Or.inr (Or.inr (Or.inr ⟨hr, hlt, i, u, rfl, hl, he, rfl⟩)))
          | fault r => simp only [he] at h; cases h
          | refused r => simp only [he] at h; cases h
  · simp only [hr, if_false] at h
    cases h
    exact Or.inl ⟨hr, rfl⟩

end Sys2Proof.Machine
end

