-- ==== Sys2Proof/Laws/Chain.lean ====
section
/-! SUPPORT. Chains of taken jumps (42_control_transfer.md R96): where they stand, that a chain that
ends visits no address twice, and how execution follows one. -/

namespace Sys2Proof.Machine

@[simp] theorem State.addHops_hops (s : State) (k : Nat) : (s.addHops k).hops = s.hops + k := rfl
@[simp] theorem State.addHops_pc (s : State) (k : Nat) : (s.addHops k).pc = s.pc := rfl
@[simp] theorem State.addHops_progLen (s : State) (k : Nat) : (s.addHops k).progLen = s.progLen := rfl
@[simp] theorem State.addHops_runState (s : State) (k : Nat) : (s.addHops k).runState = s.runState := rfl
@[simp] theorem State.addHops_output (s : State) (k : Nat) : (s.addHops k).output = s.output := rfl
@[simp] theorem State.addHops_getReg (s : State) (k : Nat) (r : Reg) :
    (s.addHops k).getReg r = s.getReg r := rfl
@[simp] theorem State.addHops_labelLookup (s : State) (k : Nat) (t : LabelId) :
    (s.addHops k).labelLookup t = s.labelLookup t := rfl
@[simp] theorem State.addHops_instrAt (s : State) (k : Nat) (a : Addr) :
    (s.addHops k).instrAt a = s.instrAt a := rfl

/-- Where a chain goes next: its register is not 0, and its target, in the program, is a `jnz`. -/
theorem chainNext_some {s : State} {c c' : ChainAt} (h : s.chainNext c = some c') :
    s.getReg c.ra ≠ 0#32 ∧ s.labelLookup c.t = some c'.a ∧ c'.a < s.progLen ∧
      ∃ l, s.instrAt c'.a = .instr (.jnz l c'.ra c'.t) := by
  unfold State.chainNext at h
  split at h
  · cases h
  · rename_i hr
    refine ⟨hr, ?_⟩
    split at h
    · cases h
    · rename_i d hl
      split at h
      · rename_i hd
        split at h
        · rename_i l ra t hi
          cases h
          exact ⟨hl, hd, l, hi⟩
        · cases h
      · cases h

/-- A chain ends at a `jnz` whose register is 0. -/
theorem chainNext_of_zero {s : State} {c : ChainAt} (h : s.getReg c.ra = 0#32) :
    s.chainNext c = none := if_pos h

/-- A chain ends at a `jnz` whose target is unbound. -/
theorem chainNext_of_unbound {s : State} {c : ChainAt} (h : s.labelLookup c.t = none) :
    s.chainNext c = none := by
  unfold State.chainNext
  split
  · rfl
  · rw [h]

/-- A chain ends at a `jnz` whose target is no `jnz` of the program. -/
theorem chainNext_of_target {s : State} {c : ChainAt} {d : Addr} (hl : s.labelLookup c.t = some d)
    (hd : d < s.progLen → ∀ l ra t, s.instrAt d ≠ .instr (.jnz l ra t)) : s.chainNext c = none := by
  cases hc : s.chainNext c with
  | none => rfl
  | some c' =>
    obtain ⟨-, hl', hd', l, hi⟩ := chainNext_some hc
    rw [hl] at hl'
    cases hl'
    exact absurd hi (hd hd' _ _ _)

theorem chain_succ {s : State} {c c' : ChainAt} {k : Nat} (h : s.chain c (k + 1) = some c') :
    ∃ b, s.chain c k = some b ∧ s.chainNext b = some c' := by
  rw [State.chain] at h
  cases hk : s.chain c k with
  | none => rw [hk] at h; cases h
  | some b => rw [hk] at h; exact ⟨b, rfl, h⟩

/-- A chain that has not ended after `k` jumps had not ended before. -/
theorem chain_prefix {s : State} {c : ChainAt} {k : Nat} (h : s.chain c k ≠ none) {j : Nat}
    (hj : j ≤ k) : s.chain c j ≠ none := by
  induction k with
  | zero => rwa [Nat.le_zero.1 hj]
  | succ k ih =>
    rcases Nat.lt_or_ge j (k + 1) with hl | hl
    · exact ih (fun hn => h (by rw [State.chain, hn])) (by omega)
    · rwa [show j = k + 1 by omega]

/-- After a jump, a chain stands at a `jnz` of the program. -/
theorem chain_place {s : State} {c c' : ChainAt} {k : Nat} (h : s.chain c (k + 1) = some c') :
    c'.a < s.progLen ∧ ∃ l, s.instrAt c'.a = .instr (.jnz l c'.ra c'.t) := by
  obtain ⟨b, -, hn⟩ := chain_succ h
  exact (chainNext_some hn).2.2

theorem chain_shift {s : State} {c : ChainAt} {i j : Nat} (h : s.chain c i = s.chain c j) (n : Nat) :
    s.chain c (i + n) = s.chain c (j + n) := by
  induction n with
  | zero => exact h
  | succ n ih => rw [← Nat.add_assoc, ← Nat.add_assoc, State.chain, State.chain, ih]

/-- A chain that comes back to a place never ends. -/
theorem chain_repeats {s : State} {c : ChainAt} {i j : Nat} (hij : i < j)
    (h : s.chain c i = s.chain c j) (hn : s.chain c j ≠ none) (k : Nat) : s.chain c k ≠ none := by
  induction k using Nat.strong_induction_on with
  | _ k ih =>
    rcases Nat.lt_or_ge k (j + 1) with hk | hk
    · exact chain_prefix hn (by omega)
    · have hs := chain_shift h (k - j)
      rw [show j + (k - j) = k by omega] at hs
      rw [← hs]
      exact ih _ (by omega)

/-- A chain that ends after `k` jumps visits no address twice. -/
theorem chain_distinct {s : State} {c c' : ChainAt} {k : Nat} (h : s.chain c k = some c')
    (hend : s.chainNext c' = none) {i j : Nat} (hi : 1 ≤ i) (hij : i < j) (hj : j ≤ k) {x y : ChainAt}
    (hx : s.chain c i = some x) (hy : s.chain c j = some y) : x.a ≠ y.a := by
  intro hxy
  obtain ⟨i', rfl⟩ : ∃ i', i = i' + 1 := ⟨i - 1, by omega⟩
  obtain ⟨j', rfl⟩ : ∃ j', j = j' + 1 := ⟨j - 1, by omega⟩
  obtain ⟨-, l1, h1⟩ := chain_place hx
  obtain ⟨-, l2, h2⟩ := chain_place hy
  rw [hxy, h2] at h1
  obtain ⟨-, hra, ht⟩ := Instr.jnz.inj (Decoded.instr.inj h1)
  have heq : x = y := by
    obtain ⟨xra, xt, xa⟩ := x
    obtain ⟨yra, yt, ya⟩ := y
    cases hra; cases ht; cases hxy
    rfl
  have hrep := chain_repeats hij (hx.trans (heq ▸ hy.symm)) (by rw [hy]; exact Option.some_ne_none _) (k + 1)
  rw [State.chain, h] at hrep
  exact hrep hend

/-- Numbers below `n`, one for each of 1 .. `k` and no two the same, are at most `n`. -/
theorem count_le {n k : Nat} (f : Nat → Nat) (hf : ∀ i, 1 ≤ i → i ≤ k → f i < n)
    (hne : ∀ i j, 1 ≤ i → i < j → j ≤ k → f i ≠ f j) : k ≤ n := by
  have h := Finset.card_le_card_of_injOn (s := Finset.Icc 1 k) (t := Finset.range n) f
    (fun i hi => by
      obtain ⟨h1, h2⟩ := Finset.mem_Icc.1 hi
      exact Finset.mem_coe.2 (Finset.mem_range.2 (hf i h1 h2)))
    (fun i hi j hj hij => by
      obtain ⟨hi1, hi2⟩ := Finset.mem_Icc.1 hi
      obtain ⟨hj1, hj2⟩ := Finset.mem_Icc.1 hj
      rcases Nat.lt_trichotomy i j with h | h | h
      · exact absurd hij (hne i j hi1 h hj2)
      · exact h
      · exact absurd hij.symm (hne j i hj1 h hi2))
  simpa using h

/-- A chain that ends has entered at most `PROG_LEN` targets. -/
theorem chain_length {s : State} {c c' : ChainAt} {k : Nat} (h : s.chain c k = some c')
    (hend : s.chainNext c' = none) : k ≤ s.progLen.toNat := by
  have hsome : ∀ i, i ≤ k → ∃ x, s.chain c i = some x := fun i hi =>
    Option.ne_none_iff_exists'.1 (chain_prefix (by rw [h]; exact Option.some_ne_none _) hi)
  choose f hf using hsome
  refine count_le (fun i => if hi : i ≤ k then (f i hi).a.toNat else 0) ?_ ?_
  · intro i hi hik
    obtain ⟨i', rfl⟩ : ∃ i', i = i' + 1 := ⟨i - 1, by omega⟩
    simp only [hik, dif_pos]
    exact (chain_place (hf _ hik)).1
  · intro i j hi hij hj heq
    have hik : i ≤ k := by omega
    simp only [hik, hj, dif_pos] at heq
    exact chain_distinct h hend hi hij hj (hf i hik) (hf j hj) (BitVec.eq_of_toNat_eq heq)

/-- A chain that ends by entering a target that is no `jnz` has room for that target. -/
theorem chain_length_target {s : State} {c c' : ChainAt} {k : Nat} (h : s.chain c k = some c')
    {d : Addr} (hl : s.labelLookup c'.t = some d) (hd : d < s.progLen)
    (hj : ∀ l ra t, s.instrAt d ≠ .instr (.jnz l ra t)) : k < s.progLen.toNat := by
  have hend := chainNext_of_target hl (fun _ => hj)
  have hsome : ∀ i, i ≤ k → ∃ x, s.chain c i = some x := fun i hi =>
    Option.ne_none_iff_exists'.1 (chain_prefix (by rw [h]; exact Option.some_ne_none _) hi)
  choose f hf using hsome
  refine count_le (k := k + 1) (fun i => if hi : i ≤ k then (f i hi).a.toNat else d.toNat) ?_ ?_
  · intro i hi hik
    by_cases hk : i ≤ k
    · obtain ⟨i', rfl⟩ : ∃ i', i = i' + 1 := ⟨i - 1, by omega⟩
      simp only [hk, dif_pos]
      exact (chain_place (hf _ hk)).1
    · simp only [hk, dif_neg, not_false_eq_true]
      exact hd
  · intro i j hi hij hjk heq
    have hik : i ≤ k := by omega
    by_cases hk : j ≤ k
    · simp only [hik, hk, dif_pos] at heq
      exact chain_distinct h hend hi hij hk (hf i hik) (hf j hk) (BitVec.eq_of_toNat_eq heq)
    · simp only [hik, hk, dif_pos, dif_neg, not_false_eq_true] at heq
      obtain ⟨i', rfl⟩ : ∃ i', i = i' + 1 := ⟨i - 1, by omega⟩
      obtain ⟨-, l, hl'⟩ := chain_place (hf _ hik)
      rw [BitVec.eq_of_toNat_eq heq] at hl'
      exact hj _ _ _ hl'

/-- Executing a `jnz` follows its chain: after `k` jumps, with `k` hops counted, the `jnz` where the
chain stands executes. -/
theorem execAt_chain {s : State} (hs : s.hops = 0) {l : Bool} {ra : Reg} {t : LabelId} {a : Addr} {k : Nat}
    {c : ChainAt} (h : s.chain ⟨ra, t, a⟩ k = some c) (hk : k ≤ s.progLen.toNat) :
    ∃ l', execAt s.progLen.toNat (.jnz l ra t) a s =
      execAt (s.progLen.toNat - k) (.jnz l' c.ra c.t) c.a (s.addHops k) := by
  induction k generalizing c with
  | zero => cases h; exact ⟨l, rfl⟩
  | succ k ih =>
    obtain ⟨b, hb, hn⟩ := chain_succ h
    obtain ⟨l1, e1⟩ := ih hb (by omega)
    obtain ⟨hr, hl, hd, l2, hi⟩ := chainNext_some hn
    refine ⟨l2, ?_⟩
    have he : jnzHop b.ra b.t b.a (s.addHops k) =
        .enters c.a (.jnz l2 c.ra c.t) (s.addHops k).countHop :=
      jnzHop_enters.2 ⟨hr, hl, hd, by rw [State.addHops_hops, State.addHops_progLen, hs]; omega, hi, rfl⟩
    obtain ⟨m, hm⟩ : ∃ m, s.progLen.toNat - k = m + 1 := ⟨s.progLen.toNat - k - 1, by omega⟩
    rw [e1, hm, execAt, he, show s.progLen.toNat - (k + 1) = m by omega]
    rfl

end Sys2Proof.Machine
end

