-- ==== Sys2Proof/Laws/Decode.lean ====
section
/-! SUPPORT. The small lemmas of the fields, the register numbers and the packed word. -/

namespace Sys2Proof

@[simp] theorem regOfNum_regNum (r : Reg) : regOfNum (regNum r) = r := by
  cases r <;> rfl

@[simp] theorem regNum_regOfNum (n : BitVec 3) : regNum (regOfNum n) = n := by
  revert n; decide

/-- Register numbers tell registers apart. -/
theorem regNum_injective {r r' : Reg} (h : regNum r = regNum r') : r = r' := by
  rw [← regOfNum_regNum r, h, regOfNum_regNum]

/-- Every bit of a packed word (R52). -/
theorem packWord_bit (imm : Word) (rb ra : BitVec 3) (l : Bool) (opc : BitVec 3) (i : Nat) :
    (packWord imm rb ra l opc).getLsbD i =
      if i < 3 then opc.getLsbD i
      else if i < 4 then l
      else if i < 7 then ra.getLsbD (i - 4)
      else if i < 10 then rb.getLsbD (i - 7)
      else if i < 32 then false
      else imm.getLsbD (i - 32) := by
  have hb : (BitVec.ofBool l ++ opc).getLsbD i = if i < 3 then opc.getLsbD i else (BitVec.ofBool l).getLsbD (i - 3) :=
    BitVec.getLsbD_append
  have ha : (ra ++ (BitVec.ofBool l ++ opc)).getLsbD i =
      if i < 4 then (BitVec.ofBool l ++ opc).getLsbD i else ra.getLsbD (i - 4) := BitVec.getLsbD_append
  have hr : (rb ++ (ra ++ (BitVec.ofBool l ++ opc))).getLsbD i =
      if i < 7 then (ra ++ (BitVec.ofBool l ++ opc)).getLsbD i else rb.getLsbD (i - 7) := BitVec.getLsbD_append
  have hz : (0#22 ++ (rb ++ (ra ++ (BitVec.ofBool l ++ opc)))).getLsbD i =
      if i < 10 then (rb ++ (ra ++ (BitVec.ofBool l ++ opc))).getLsbD i else (0#22).getLsbD (i - 10) :=
    BitVec.getLsbD_append
  have hw : (packWord imm rb ra l opc).getLsbD i =
      if i < 32 then (0#22 ++ (rb ++ (ra ++ (BitVec.ofBool l ++ opc)))).getLsbD i else imm.getLsbD (i - 32) :=
    BitVec.getLsbD_append
  rw [hw, hz, hr, ha, hb, BitVec.getLsbD_zero]
  by_cases h3 : i < 3
  · have : i < 4 ∧ i < 7 ∧ i < 10 ∧ i < 32 := by omega
    simp only [h3, this, if_true]
  by_cases h4 : i < 4
  · have hi : i = 3 := by omega
    subst hi
    cases l <;> rfl
  by_cases h7 : i < 7
  · have : i < 10 ∧ i < 32 := by omega
    simp only [h3, h4, h7, this, if_true, if_false]
  by_cases h10 : i < 10
  · have : i < 32 := by omega
    simp only [h3, h4, h7, h10, this, if_true, if_false]
  simp only [h3, h4, h7, h10, if_false]

@[simp] theorem opcField_packWord (imm : Word) (rb ra : BitVec 3) (l : Bool) (opc : BitVec 3) :
    opcField (packWord imm rb ra l opc) = opc := by
  apply BitVec.eq_of_getLsbD_eq
  intro i hi
  simp only [opcField, BitVec.getLsbD_extractLsb', packWord_bit, hi, if_true, decide_true,
    Bool.true_and, Nat.zero_add]

@[simp] theorem labelField_packWord (imm : Word) (rb ra : BitVec 3) (l : Bool) (opc : BitVec 3) :
    labelField (packWord imm rb ra l opc) = l := packWord_bit imm rb ra l opc 3

@[simp] theorem raField_packWord (imm : Word) (rb ra : BitVec 3) (l : Bool) (opc : BitVec 3) :
    raField (packWord imm rb ra l opc) = ra := by
  apply BitVec.eq_of_getLsbD_eq
  intro i hi
  have h : ¬4 + i < 3 ∧ ¬4 + i < 4 ∧ 4 + i < 7 := by omega
  simp only [raField, BitVec.getLsbD_extractLsb', packWord_bit, hi, h, if_true, if_false, decide_true,
    Bool.true_and, Nat.add_sub_cancel_left]

@[simp] theorem rbField_packWord (imm : Word) (rb ra : BitVec 3) (l : Bool) (opc : BitVec 3) :
    rbField (packWord imm rb ra l opc) = rb := by
  apply BitVec.eq_of_getLsbD_eq
  intro i hi
  have h : ¬7 + i < 3 ∧ ¬7 + i < 4 ∧ ¬7 + i < 7 ∧ 7 + i < 10 := by omega
  simp only [rbField, BitVec.getLsbD_extractLsb', packWord_bit, hi, h, if_true, if_false, decide_true,
    Bool.true_and, Nat.add_sub_cancel_left]

@[simp] theorem rsvField_packWord (imm : Word) (rb ra : BitVec 3) (l : Bool) (opc : BitVec 3) :
    rsvField (packWord imm rb ra l opc) = 0#22 := by
  apply BitVec.eq_of_getLsbD_eq
  intro i hi
  have h : ¬10 + i < 3 ∧ ¬10 + i < 4 ∧ ¬10 + i < 7 ∧ ¬10 + i < 10 ∧ 10 + i < 32 := by omega
  simp only [rsvField, BitVec.getLsbD_extractLsb', packWord_bit, h, if_true, if_false, Bool.and_false,
    BitVec.getLsbD_zero]

@[simp] theorem immField_packWord (imm : Word) (rb ra : BitVec 3) (l : Bool) (opc : BitVec 3) :
    immField (packWord imm rb ra l opc) = imm := by
  apply BitVec.eq_of_getLsbD_eq
  intro i hi
  have h : ¬32 + i < 3 ∧ ¬32 + i < 4 ∧ ¬32 + i < 7 ∧ ¬32 + i < 10 ∧ ¬32 + i < 32 := by omega
  simp only [immField, BitVec.getLsbD_extractLsb', packWord_bit, hi, h, if_false, decide_true,
    Bool.true_and, Nat.add_sub_cancel_left]

/-- A word whose reserved bits are 0 is the word packed from its fields. -/
theorem packWord_fields (w : IWord) (h : rsvField w = 0#22) :
    packWord (immField w) (rbField w) (raField w) (labelField w) (opcField w) = w := by
  have hrsv : ∀ j, 10 ≤ j → j < 32 → w.getLsbD j = false := by
    intro j hj hj'
    have hb : (rsvField w).getLsbD (j - 10) = w.getLsbD j := by
      have h1 : j - 10 < 22 := by omega
      have h2 : 10 + (j - 10) = j := by omega
      simp only [rsvField, BitVec.getLsbD_extractLsb', h1, h2, decide_true, Bool.true_and]
    rw [← hb, h, BitVec.getLsbD_zero]
  apply BitVec.eq_of_getLsbD_eq
  intro i hi
  rw [packWord_bit]
  by_cases h3 : i < 3
  · simp only [h3, if_true, opcField, BitVec.getLsbD_extractLsb', decide_true, Bool.true_and, Nat.zero_add]
  by_cases h4 : i < 4
  · have hi' : i = 3 := by omega
    subst hi'; rfl
  by_cases h7 : i < 7
  · have h1 : i - 4 < 3 := by omega
    have h2 : 4 + (i - 4) = i := by omega
    simp only [h3, h4, h7, if_true, if_false, raField, BitVec.getLsbD_extractLsb', h1, h2, decide_true,
      Bool.true_and]
  by_cases h10 : i < 10
  · have h1 : i - 7 < 3 := by omega
    have h2 : 7 + (i - 7) = i := by omega
    simp only [h3, h4, h7, h10, if_true, if_false, rbField, BitVec.getLsbD_extractLsb', h1, h2,
      decide_true, Bool.true_and]
  by_cases h32 : i < 32
  · simp only [h3, h4, h7, h10, h32, if_true, if_false]
    exact (hrsv i (by omega) h32).symm
  have h1 : i - 32 < 32 := by omega
  have h2 : 32 + (i - 32) = i := by omega
  simp only [h3, h4, h7, h10, h32, if_false, immField, BitVec.getLsbD_extractLsb', h1, h2, decide_true,
    Bool.true_and]

/-- A mask below bit 32 does not see the immediate. -/
theorem packWord_and_low (imm : Word) (rb ra : BitVec 3) (l : Bool) (opc : BitVec 3) (m : IWord)
    (hm : m.toNat < 2 ^ 32) :
    packWord imm rb ra l opc &&& m = packWord 0#32 rb ra l opc &&& m := by
  apply BitVec.eq_of_getLsbD_eq
  intro i hi
  simp only [BitVec.getLsbD_and, packWord_bit]
  by_cases h : i < 32
  · simp only [h, if_true]
  · have hz : m.getLsbD i = false :=
      Nat.testBit_lt_two_pow (lt_of_lt_of_le hm (Nat.pow_le_pow_right (by decide) (Nat.not_lt.1 h)))
    simp only [hz, Bool.and_false]

end Sys2Proof
end

