-- ==== Sys2Proof/Laws/Memory.lean ====
section
/-! SUPPORT. Read after write for the sparse stores, and that every operation keeps the canonical form. -/

namespace Sys2Proof.Machine

variable {α : Type}

theorem Memory.find_put_same (m : Memory α) (a : Nat) (v : α) : (m.put a v).find a = some v := by
  induction m with
  | nil => simp [Memory.put, Memory.find]
  | cons x m ih =>
    obtain ⟨k, w⟩ := x
    rcases Nat.lt_trichotomy a k with h | h | h
    · simp [Memory.put, Memory.find, h]
    · simp [Memory.put, Memory.find, h]
    · simp [Memory.put, Memory.find, ih, Nat.not_lt.2 h.le, h.ne, h.ne']

theorem Memory.find_put_ne (m : Memory α) {a b : Nat} (v : α) (h : b ≠ a) :
    (m.put a v).find b = m.find b := by
  induction m with
  | nil => simp [Memory.put, Memory.find, h.symm]
  | cons x m ih =>
    obtain ⟨k, w⟩ := x
    rcases Nat.lt_trichotomy a k with hk | hk | hk
    · simp [Memory.put, Memory.find, hk, h.symm]
    · subst hk; simp [Memory.put, Memory.find, h.symm]
    · simp [Memory.put, Memory.find, ih, Nat.not_lt.2 hk.le, hk.ne']

/-- A store whose addresses all lie above `a` lists nothing at `a`. -/
theorem Memory.find_of_lt (m : Memory α) {a : Nat} (h : ∀ x ∈ m, a < x.1) : m.find a = none := by
  induction m with
  | nil => rfl
  | cons x m ih =>
    have hx := h x (List.mem_cons_self ..)
    simp only [Memory.find, hx.ne', if_false]
    exact ih (fun y hy => h y (List.mem_cons_of_mem _ hy))

theorem Memory.find_erase_same (m : Memory α) (hm : m.wf) (a : Nat) : (m.erase a).find a = none := by
  induction m with
  | nil => rfl
  | cons x m ih =>
    obtain ⟨k, w⟩ := x
    have hm' := List.pairwise_cons.1 hm
    by_cases h : k = a
    · subst h; simpa [Memory.erase] using Memory.find_of_lt m hm'.1
    · simp [Memory.erase, Memory.find, h, ih hm'.2]

theorem Memory.find_erase_ne (m : Memory α) {a b : Nat} (h : b ≠ a) :
    (m.erase a).find b = m.find b := by
  induction m with
  | nil => rfl
  | cons x m ih =>
    obtain ⟨k, w⟩ := x
    by_cases hk : k = a
    · subst hk; simp [Memory.erase, Memory.find, h.symm]
    · simp [Memory.erase, Memory.find, hk, ih]

/-- What a write lists: the new entry and entries that were listed. -/
theorem Memory.mem_put {m : Memory α} {a : Nat} {v : α} {x : Nat × α} (h : x ∈ m.put a v) :
    x = (a, v) ∨ x ∈ m := by
  induction m with
  | nil => exact Or.inl (by simpa [Memory.put] using h)
  | cons y m ih =>
    obtain ⟨k, w⟩ := y
    simp only [Memory.put] at h
    split at h
    · simpa using h
    · split at h
      · rcases List.mem_cons.1 h with h | h
        · exact Or.inl h
        · exact Or.inr (List.mem_cons_of_mem _ h)
      · rcases List.mem_cons.1 h with h | h
        · exact Or.inr (h ▸ List.mem_cons_self ..)
        · exact (ih h).imp id (List.mem_cons_of_mem _)

/-- An erase lists only entries that were listed. -/
theorem Memory.mem_erase {m : Memory α} {a : Nat} {x : Nat × α} (h : x ∈ m.erase a) : x ∈ m := by
  induction m with
  | nil => exact h
  | cons y m ih =>
    obtain ⟨k, w⟩ := y
    simp only [Memory.erase] at h
    split at h
    · exact List.mem_cons_of_mem _ h
    · rcases List.mem_cons.1 h with h | h
      · exact h ▸ List.mem_cons_self ..
      · exact List.mem_cons_of_mem _ (ih h)

theorem Memory.put_wf (m : Memory α) (hm : m.wf) (a : Nat) (v : α) : (m.put a v).wf := by
  induction m with
  | nil => simp [Memory.put]
  | cons x m ih =>
    obtain ⟨k, w⟩ := x
    have hm' := List.pairwise_cons.1 hm
    simp only [Memory.put]
    split
    · rename_i hlt
      refine List.pairwise_cons.2 ⟨fun y hy => ?_, hm⟩
      rcases List.mem_cons.1 hy with hy | hy
      · exact hy ▸ hlt
      · exact lt_trans hlt (hm'.1 y hy)
    · split
      · rename_i heq
        exact List.pairwise_cons.2 ⟨fun y hy => heq ▸ hm'.1 y hy, hm'.2⟩
      · rename_i hnlt hne
        refine List.pairwise_cons.2 ⟨fun y hy => ?_, ih hm'.2⟩
        rcases Memory.mem_put hy with hy | hy
        · exact hy ▸ (lt_of_le_of_ne (Nat.not_lt.1 hnlt) (Ne.symm hne))
        · exact hm'.1 y hy

theorem Memory.erase_wf (m : Memory α) (hm : m.wf) (a : Nat) : (m.erase a).wf := by
  induction m with
  | nil => exact hm
  | cons x m ih =>
    obtain ⟨k, w⟩ := x
    have hm' := List.pairwise_cons.1 hm
    simp only [Memory.erase]
    split
    · exact hm'.2
    · exact List.pairwise_cons.2 ⟨fun y hy => hm'.1 y (Memory.mem_erase hy), ih hm'.2⟩

end Sys2Proof.Machine
end

