-- ==== Sys2Proof/Laws/PerInstr.lean ====
section
/-! SUPPORT. Facts about every instruction as syntax, one lemma per constructor. -/

namespace Sys2Proof.Laws.SelectsRow

/-- The word of an instruction selects the row of the opcode map that is its own, and no other
(30_encoding.md R55, R78). -/
def Statement (i : Instr) : Prop :=
  ∀ k, k < 7 → ((opcodeMap.map (fun r => r.selects (encode i))).getD k false = true ↔ k = rowIndex i)

theorem add (l : Bool) (ra rb : Reg) : Statement (.add l ra rb) := by
  cases l <;> cases ra <;> cases rb <;> unfold Statement <;> decide

theorem sub (l : Bool) (ra rb : Reg) : Statement (.sub l ra rb) := by
  cases l <;> cases ra <;> cases rb <;> unfold Statement <;> decide

theorem mul (l : Bool) (ra rb : Reg) : Statement (.mul l ra rb) := by
  cases l <;> cases ra <;> cases rb <;> unfold Statement <;> decide

theorem div (l : Bool) (ra rb : Reg) : Statement (.div l ra rb) := by
  cases l <;> cases ra <;> cases rb <;> unfold Statement <;> decide

theorem out (l : Bool) (ra : Reg) : Statement (.out l ra) := by
  cases l <;> cases ra <;> unfold Statement <;> decide

/-- A row whose opcode differs from the word's in a bit of the mask is not selected. -/
theorem not_selected (imm : Word) (rb ra : BitVec 3) (l : Bool) (opc : BitVec 3) (r : OpRow)
    (hmask : r.mask &&& 7#64 = 7#64) (hopc : opc ≠ opcField r.pattern) :
    r.selects (packWord imm rb ra l opc) = false := by
  rw [OpRow.selects, decide_eq_false_iff_not]
  intro h
  apply hopc
  apply BitVec.eq_of_getLsbD_eq
  intro i hi
  have hb := congrArg (fun w => w.getLsbD i) h
  have hm := congrArg (fun w => w.getLsbD i) hmask
  have h7 : (7#64).getLsbD i = true := by
    have : i = 0 ∨ i = 1 ∨ i = 2 := by omega
    rcases this with rfl | rfl | rfl <;> rfl
  simp only [BitVec.getLsbD_and, packWord_bit, hi, if_true, h7, Bool.and_true] at hb hm
  rw [hm, Bool.and_true] at hb
  simp only [opcField, BitVec.getLsbD_extractLsb', hi, decide_true, Bool.true_and, Nat.zero_add]
  exact hb

theorem mov (l : Bool) (ra : Reg) (imm : Word) : Statement (.mov l ra imm) := by
  intro k hk
  have hsel : (OpRow.mk "mov" 4#64 0x00000000FFFFFF87#64).selects (encode (.mov l ra imm)) = true := by
    rw [OpRow.selects, decide_eq_true_iff, encode, packWord_and_low _ _ _ _ _ _ (by decide)]
    cases l <;> cases ra <;> decide
  have hno : ∀ r : OpRow, r.mask &&& 7#64 = 7#64 → (4#3 : BitVec 3) ≠ opcField r.pattern →
      r.selects (encode (.mov l ra imm)) = false := fun r h1 h2 => not_selected imm _ _ l _ r h1 h2
  simp only [opcodeMap, List.map_cons, List.map_nil, rowIndex, hsel]
  rw [hno _ (by decide) (by decide), hno _ (by decide) (by decide), hno _ (by decide) (by decide),
    hno _ (by decide) (by decide), hno _ (by decide) (by decide), hno _ (by decide) (by decide)]
  revert k; decide

theorem jnz (l : Bool) (ra : Reg) (t : LabelId) : Statement (.jnz l ra t) := by
  intro k hk
  have hsel : (OpRow.mk "jnz" 6#64 0x00000000FFFFFF87#64).selects (encode (.jnz l ra t)) = true := by
    rw [OpRow.selects, decide_eq_true_iff, encode, packWord_and_low _ _ _ _ _ _ (by decide)]
    cases l <;> cases ra <;> decide
  have hno : ∀ r : OpRow, r.mask &&& 7#64 = 7#64 → (6#3 : BitVec 3) ≠ opcField r.pattern →
      r.selects (encode (.jnz l ra t)) = false := fun r h1 h2 => not_selected t _ _ l _ r h1 h2
  simp only [opcodeMap, List.map_cons, List.map_nil, rowIndex, hsel]
  rw [hno _ (by decide) (by decide), hno _ (by decide) (by decide), hno _ (by decide) (by decide),
    hno _ (by decide) (by decide), hno _ (by decide) (by decide), hno _ (by decide) (by decide)]
  revert k; decide

end Sys2Proof.Laws.SelectsRow
end

