-- ==== Sys2Proof/Laws/Run.lean ====
section
/-! SUPPORT. Runs of several steps, one step at a time. -/

namespace Sys2Proof.Machine

/-- The step always answers a next state. -/
theorem step_next (s : State) : ∃ t, step s = .next t := by
  unfold step
  cases front s with
  | runs i =>
    rcases exec_cases i s.clearHops with ⟨t, -, he⟩ | ⟨c, q, t, -, he⟩ <;>
      exact ⟨_, by simp only [he]; rfl⟩
  | _ => exact ⟨_, rfl⟩

theorem run_zero (s : State) : Host.Core.run core 0 s = .next s := rfl

theorem run_succ {s t : State} (h : step s = .next t) (k : Nat) :
    Host.Core.run core (k + 1) s = Host.Core.run core k t := by
  have run_step : ∀ (M : Host.Core) (s t : M.State), M.step s = .next t → M.run (k + 1) s = M.run k t :=
    fun M s t h => by rw [Host.Core.run, h]
  exact run_step core s t h

end Sys2Proof.Machine
end

