-- ==== Sys2Proof/Tests/Slice0.lean ====
section
/-! SUPPORT. Tests: expected results are the spec's own vectors (95_test_vectors.md, named in each
comment) or read off the cited rule; and, for each statement with hypotheses, a state that meets them. -/

namespace Sys2Proof.Tests

open Sys2Proof.Machine

/-! ### Well-formedness smoke -/

theorem test_params_wf : Params.wf ⟨1, 0⟩ = true ∧ Params.wf ⟨4294967295, 4294967296⟩ = true := by decide
theorem test_params_progMax_zero_refused : Params.wf ⟨0, 8⟩ = false := by decide
theorem test_params_progMax_large_refused : Params.wf ⟨4294967296, 8⟩ = false := by decide
theorem test_params_labelSlots_large_refused : Params.wf ⟨16, 4294967297⟩ = false := by decide
theorem test_instr_label_id_refused : Instr.wf ⟨16, 8⟩ (.jnz false .eax 8#32) = false := by decide
theorem test_image_too_long_refused : Image.wf ⟨1, 8⟩ ⟨[0#64, 0#64], []⟩ = false := by decide
theorem test_image_labels_refused : Image.wf ⟨16, 0⟩ ⟨[], [⟨false, 0#32⟩]⟩ = false := by decide
theorem test_image_target_refused : Image.wf ⟨16, 8⟩ ⟨[0#64], [⟨true, 1#32⟩]⟩ = false := by decide
theorem test_image_wf : Image.wf ⟨16, 8⟩ ⟨[0#64], [⟨true, 0#32⟩, ⟨false, 7#32⟩]⟩ = true := by decide

/-! ### Decoding: words written bit by bit from R52, `IMM | RSV | RB | RA | L | OPC` -/

-- `add EAX EDI` (X11)
theorem test_decode_add : decode (0x00000000#32 ++ (0#22 ++ (0b111#3 ++ (0b000#3 ++ (0b0#1 ++ 0b000#3))))) = .instr (.add false .eax .edi) := by decide
-- `sub EBX EAX` (P5, word 7)
theorem test_decode_sub : decode (0x00000000#32 ++ (0#22 ++ (0b000#3 ++ (0b001#3 ++ (0b0#1 ++ 0b001#3))))) = .instr (.sub false .ebx .eax) := by decide
-- `mul EDX ECX` (P5, word 6)
theorem test_decode_mul : decode (0x00000000#32 ++ (0#22 ++ (0b010#3 ++ (0b011#3 ++ (0b0#1 ++ 0b010#3))))) = .instr (.mul false .edx .ecx) := by decide
-- `l: div ECX EDX`
theorem test_decode_div : decode (0x00000000#32 ++ (0#22 ++ (0b011#3 ++ (0b010#3 ++ (0b1#1 ++ 0b011#3))))) = .instr (.div true .ecx .edx) := by decide
-- `mov EDI -1` (X10)
theorem test_decode_mov : decode (0xFFFFFFFF#32 ++ (0#22 ++ (0b000#3 ++ (0b111#3 ++ (0b0#1 ++ 0b100#3))))) = .instr (.mov false .edi 0xFFFFFFFF#32) := by decide
-- `x: out EAX` (X9)
theorem test_decode_out : decode (0x00000000#32 ++ (0#22 ++ (0b000#3 ++ (0b000#3 ++ (0b1#1 ++ 0b101#3))))) = .instr (.out true .eax) := by decide
-- `jnz EAX` to label id 3 (X14)
theorem test_decode_jnz : decode (0x00000003#32 ++ (0#22 ++ (0b000#3 ++ (0b000#3 ++ (0b0#1 ++ 0b110#3))))) = .instr (.jnz false .eax 3#32) := by decide
-- X1 to X8
theorem test_decode_illegal : decode 0x7#64 = .illegal .reservedOpcode ∧ decode 0x400#64 = .illegal .reservedBits ∧
    decode 0x80000000#64 = .illegal .reservedBits ∧ decode 0x100000000#64 = .illegal .unusedImm ∧
    decode 0x85#64 = .illegal .unusedRb ∧ decode 0x387#64 = .illegal .reservedOpcode := by decide
-- P1, word 1, as the opcode table numbers its bits
theorem test_decode_table_word : decodeTableWord 64 0x0000000700000024 = some (.mov false .ecx 7#32) := by decide

/-! ### A small core -/

/-- A core after power-on with `PROG_MAX` 16 and `LABEL_SLOTS` 8. -/
def core0 : State := State.resetFor ⟨16, 8⟩ 0

/-- A core in a run with EAX = 1, EBX = 0, ECX = 5 and this program: 0 `jnz EAX 0`, 1 `mov EAX 8`
(labelled), 2 `jnz ECX 0` (labelled), 3 `div EAX EBX`, 4 `jnz EAX 3`, 5 an Illegal word, 6 `jnz EBX 0`,
7 `out EAX`, 8 `jnz ECX 8`; ids 0 to 7 bound to 1, 2, 3, 4, 5, 9 (beyond the program), 6, 8. -/
def demo : State :=
  { core0 with
    regs := { RegFile.zero with eax := 1#32, ecx := 5#32 },
    prog := [(0, 0x0000000000000006#64), (1, 0x000000080000000C#64), (2, 0x000000000000002E#64),
      (3, 0x0000000000000083#64), (4, 0x0000000300000006#64), (5, 0x0000000000000007#64),
      (6, 0x0000000000000016#64), (7, 0x0000000000000005#64), (8, 0x0000000800000026#64)],
    progLen := 9#32,
    labels := [(0, 1#32), (1, 2#32), (2, 3#32), (3, 4#32), (4, 5#32), (5, 9#32), (6, 6#32), (7, 8#32)],
    runState := .run }

/-- `demo` with two registers set. -/
def withAB (a b : Word) : State := { demo with regs := { demo.regs with eax := a, ebx := b } }

/-- A look at the next state an outcome holds. -/
def look {α : Type} (f : State → α) (o : Host.Outcome State Fault Refusal) : Option α :=
  match o with
  | .next t => some (f t)
  | _ => none

/-! ### One step of each instruction -/

-- A2
theorem test_add_wraps : look (·.regs.eax) (exec (.add false .eax .ebx) (withAB 0x7FFFFFFF#32 1#32)) = some 0x80000000#32 := by decide
-- A30, one register read twice
theorem test_add_same : look (·.regs.eax) (exec (.add false .eax .eax) (withAB 0x40000000#32 0#32)) = some 0x80000000#32 := by decide
-- A6: the operand order
theorem test_sub_order : look (·.regs.eax) (exec (.sub false .eax .ebx) (withAB 2#32 7#32)) = some 0xFFFFFFFB#32 := by decide
-- A14
theorem test_mul_wraps : look (·.regs.eax) (exec (.mul false .eax .ebx) (withAB 0x80000000#32 0xFFFFFFFF#32)) = some 0x80000000#32 := by decide
-- A17: toward zero, not -4
theorem test_div_toward_zero : look (·.regs.eax) (exec (.div false .eax .ebx) (withAB 0xFFFFFFF9#32 2#32)) = some 0xFFFFFFFD#32 := by decide
-- A27, W3: a zero dividend faults too
theorem test_div_zero_dividend : look (fun t => (t.runState, t.cause, t.regs.eax)) (exec (.div false .eax .ebx) (withAB 0#32 5#32)) = some (.fault, some .divideByZero, 0#32) := by decide
-- M3
theorem test_mov : look (·.regs.edi) (exec (.mov false .edi 0xFFFFFFFF#32) demo) = some 0xFFFFFFFF#32 := by decide
-- O2
theorem test_out : look (·.output) (exec (.out false .ebx) (withAB 0#32 0xFFFFFFFD#32)) = some [⟨.ebx, 0xFFFFFFFD#32⟩] := by decide
-- W9: the labelled `mov EAX 8` executes nested; the pc goes on after the jump
theorem test_jnz_step : look (fun t => (t.regs.eax, t.pc)) (step demo) = some (8#32, 1#32) := by decide
-- P4, J6: the jump that jumps to itself
theorem test_jnz_cycle : look (fun t => (t.cause, t.faultAddr, t.hops)) (step { demo with pc := 4#32 }) = some (some .jumpCycle, 4#32, 0) := by decide

/-! ### Host window, text line, assembler -/

-- H2: STATUS after W8
theorem test_status : State.status (demo.enterFault .divideByZero 2#32) = 0x00000013#32 := by decide
-- O4
theorem test_record_line : recordLine ⟨.ecx, 0x80000000#32⟩ = "ECX - -2147483648".toList := by decide
-- T9, T19, T28
theorem test_translate_unknown : translate "x: y: out EAX".toList = .error .unknownOpcode 1 := by decide
theorem test_translate_arity : translate "mov EAX - 5".toList = .error .malformedLine 1 := by decide
theorem test_translate_line : translate "mov EAX 1\n\nmov EBX x".toList = .error .invalidIntegerLiteral 3 := by decide
-- T33
theorem test_translate_duplicate : translate "x: mov EAX 1\nx: mov EAX 2".toList = .error .duplicateLabel 2 := by decide
-- T38
theorem test_image_length_first : buildImage ⟨1, 0⟩ ⟨[⟨some ['x'], .out .eax⟩, ⟨none, .out .eax⟩], []⟩ = .error .programTooLong := by decide
-- R105
theorem test_asm_codes : asmCode .unknownOpcode = 1 ∧ asmCode .malformedLine = 2 ∧ asmCode .invalidRegisterName = 3 ∧
    asmCode .invalidIntegerLiteral = 4 ∧ asmCode .duplicateLabel = 5 ∧ asmCode .programTooLong = 6 ∧ asmCode .tooManyLabels = 7 := by decide
-- W6
theorem test_render : render ⟨some "test".toList, .mov .eax (-3)⟩ = "test: mov EAX -3".toList := by decide
theorem test_operand_equal : operandEqual ⟨some ['x'], .mov .ebx 5⟩ ⟨none, .mov .ebx 5⟩ = true := by decide
-- R39
theorem test_bytes : bytesOfWord 0x0000000500000024#64 = [0x24#8, 0#8, 0#8, 0#8, 5#8, 0#8, 0#8, 0#8] := by decide

/-! ### Witnesses: states that meet the hypotheses of the statements -/

theorem witness_PowerOnResetValues : (∃ p n, core0 = State.resetFor p n) ∧
    ∃ s0 : State, demo.powerOn = s0.powerOn := ⟨⟨_, _, rfl⟩, ⟨_, rfl⟩⟩

theorem witness_ResetMeetsInvariant : Params.wf ⟨16, 8⟩ = true ∧ Params.wf ⟨1, 0⟩ = true ∧
    Params.wf ⟨4294967295, 4294967296⟩ = true := by decide

theorem witness_StartOfRun : core0.runState ≠ .run ∧ demo.endRun.runState ≠ .run ∧
    (demo.enterFault .jumpCycle 1#32).runState ≠ .run ∧ (1#32).getLsbD 0 = true ∧
    (0xFFFFFFFF#32).getLsbD 0 = true := by decide

theorem witness_CtrlFields : demo.runState = .run ∧ (0xFFFFFFFE#32).getLsbD 0 = false ∧
    core0.runState ≠ .run ∧ (1#32).getLsbD 0 = true := by decide

theorem core0_statusOk : core0.StatusOk := ⟨by decide, by decide, by decide, by decide, rfl⟩

theorem demo_statusOk : demo.StatusOk := ⟨by decide, by decide, by decide, by decide, rfl⟩

theorem demo_done_statusOk : demo.endRun.StatusOk := ⟨by decide, by decide, by decide, by decide, rfl⟩

theorem demo_fault_statusOk (c : RunFault) : (demo.enterFault c 3#32).StatusOk :=
  ⟨by revert c; intro c; cases c <;> decide, by cases c <;> decide, by cases c <;> decide,
    by cases c <;> decide, rfl⟩

theorem witness_StatusFields : core0.StatusOk ∧ core0.runState = .idle ∧ demo.StatusOk ∧
    demo.runState = .run ∧ demo.endRun.StatusOk ∧ demo.endRun.runState = .done ∧
    (∀ c, (demo.enterFault c 3#32).StatusOk ∧ (demo.enterFault c 3#32).runState = .fault ∧
      (demo.enterFault c 3#32).cause = some c) :=
  ⟨core0_statusOk, rfl, demo_statusOk, rfl, demo_done_statusOk, rfl,
    fun c => ⟨demo_fault_statusOk c, rfl, rfl⟩⟩

theorem witness_HostWindowReads : core0.runState ≠ .run ∧ hostReg 0x14 = some .reserved ∧
    hostReg 0x1C = some .reserved ∧ hostReg 0x20 = some (.reg .eax) ∧ hostReg 0x3C = some (.reg .edi) ∧
    hostReg 0x3D = some .reserved ∧ hostReg 0x10 = some .faultAddr ∧ hostReg 0x21 = none := by decide

theorem witness_SetLength : core0.runState ≠ .run ∧ (16#32).toNat ≤ core0.params.progMax ∧
    core0.params.progMax < (17#32).toNat ∧ demo.runState = .run := by decide

theorem witness_LoadedWordIsFetched : core0.runState ≠ .run ∧ 15 < core0.params.progMax := by decide

theorem witness_LoadedLabelIsLookedUp : demo.endRun.labels.wf ∧ demo.endRun.runState ≠ .run ∧
    (7#32).toNat < demo.endRun.params.labelSlots ∧
    demo.endRun.params.labelSlots ≤ (8#32).toNat := by decide

theorem witness_NoLoadDuringRun : demo.runState = .run ∧ core0.runState ≠ .run ∧
    core0.params.progMax ≤ 16 ∧ core0.params.labelSlots ≤ 8 := by decide

theorem witness_DivResult :
    ((withAB 7#32 2#32).getReg .eax ≠ 0#32 ∧ (withAB 7#32 2#32).getReg .ebx ≠ 0#32) ∧
    (withAB 0#32 5#32).getReg .eax = 0#32 ∧ (withAB 5#32 0#32).getReg .ebx = 0#32 := by decide

theorem witness_QuotientTowardZero : (0xFFFFFFFF#32 : Word) ≠ 0#32 ∧
    ¬((0x7FFFFFFF#32 : Word) = 0x80000000#32 ∧ (0xFFFFFFFF#32 : Word) = 0xFFFFFFFF#32) ∧
    (0 : Int) ≤ (0x7FFFFFFF#32 : Word).toInt ∧ (0x80000000#32 : Word).toInt ≤ 0 := by decide

theorem witness_MovResult : (-2147483648 : Int) ≤ -2147483648 ∧ (2147483647 : Int) ≤ 2147483647 ∧
    readReg "EDI".toList = some .edi ∧ tokens "mov EDI 0x10".toList = ["mov".toList, "EDI".toList, "0x10".toList] ∧
    readSigned "0x10".toList = none ∧
    tokens "x: mov EDI 2147483648".toList =
      [['x'] ++ [':'], "mov".toList, "EDI".toList, "2147483648".toList] ∧
    readSigned "2147483648".toList = some 2147483648 ∧ readSigned "-2147483649".toList = some (-2147483649) ∧
    readSigned "-2147483648".toList = some (-2147483648) ∧
    readSigned "+2147483647".toList = some 2147483647 := by decide

theorem witness_JnzNotTaken : demo.getReg .ebx = 0#32 := by decide

theorem witness_JnzTakenRunsTarget : demo.hops = 0 ∧ demo.getReg .eax ≠ 0#32 ∧
    demo.labelLookup 0#32 = some 1#32 ∧ 1#32 < demo.progLen ∧
    demo.instrAt 1#32 = .instr (.mov true .eax 8#32) := by decide

/-- A `div` target with both operands non-zero meets the hypotheses too. -/
theorem witness_JnzTakenRunsTarget_div : (withAB 6#32 3#32).hops = 0 ∧
    (withAB 6#32 3#32).getReg .eax ≠ 0#32 ∧ (withAB 6#32 3#32).labelLookup 2#32 = some 3#32 ∧
    3#32 < (withAB 6#32 3#32).progLen ∧
    (withAB 6#32 3#32).instrAt 3#32 = .instr (.div false .eax .ebx) ∧
    (withAB 6#32 3#32).getReg .ebx ≠ 0#32 := by decide

theorem witness_JnzNestedDivideByZero : demo.hops = 0 ∧ demo.getReg .eax ≠ 0#32 ∧
    demo.labelLookup 2#32 = some 3#32 ∧ 3#32 < demo.progLen ∧
    demo.instrAt 3#32 = .instr (.div false .eax .ebx) ∧ demo.getReg .ebx = 0#32 := by decide

theorem witness_JnzFaults : demo.hops = 0 ∧ demo.getReg .eax ≠ 0#32 ∧ demo.labelLookup 8#32 = none ∧
    demo.labelLookup 5#32 = some 9#32 ∧ demo.progLen ≤ 9#32 ∧ demo.labelLookup 4#32 = some 5#32 ∧
    5#32 < demo.progLen ∧ demo.instrAt 5#32 = .illegal .reservedOpcode := by decide

theorem witness_JumpCycleExactlyEndlessChains : demo.runState = .run ∧ demo.hops = 0 ∧
    demo.chain ⟨.eax, 3#32, demo.pc⟩ 12 = some ⟨.eax, 3#32, 4#32⟩ ∧
    demo.chain ⟨.eax, 0#32, demo.pc⟩ 1 = none := by decide

/-- `jnz EAX 3` in `demo` jumps to the `jnz` at 4, which jumps to itself: the chain never ends. -/
theorem witness_JumpCycleExactlyEndlessChains_endless (k : Nat) :
    demo.chain ⟨.eax, 3#32, demo.pc⟩ k ≠ none :=
  chain_repeats (i := 1) (j := 2) (by decide) (by decide) (by decide) k

theorem witness_FiniteChainCompletes : demo.hops = 0 ∧
    demo.chain ⟨.eax, 6#32, demo.pc⟩ 1 = some ⟨.ebx, 0#32, 6#32⟩ ∧ demo.getReg .ebx = 0#32 ∧
    demo.chain ⟨.eax, 1#32, demo.pc⟩ 1 = some ⟨.ecx, 0#32, 2#32⟩ ∧ demo.getReg .ecx ≠ 0#32 ∧
    demo.labelLookup 0#32 = some 1#32 ∧ 1#32 < demo.progLen ∧
    demo.instrAt 1#32 = .instr (.mov true .eax 8#32) := by decide

theorem witness_FiniteChainFaults : demo.hops = 0 ∧
    demo.chain ⟨.eax, 7#32, demo.pc⟩ 1 = some ⟨.ecx, 8#32, 8#32⟩ ∧ demo.getReg .ecx ≠ 0#32 ∧
    demo.labelLookup 8#32 = none ∧
    demo.chain ⟨.eax, 5#32, demo.pc⟩ 0 = some ⟨.eax, 5#32, 0#32⟩ ∧ demo.getReg .eax ≠ 0#32 ∧
    demo.labelLookup 5#32 = some 9#32 ∧ demo.progLen ≤ 9#32 ∧
    demo.labelLookup 4#32 = some 5#32 ∧ demo.instrAt 5#32 = .illegal .reservedOpcode ∧
    demo.labelLookup 2#32 = some 3#32 ∧ demo.instrAt 3#32 = .instr (.div false .eax .ebx) ∧
    demo.getReg .ebx = 0#32 := by decide

theorem witness_StepRunsDecoded : demo.runState = .run ∧ demo.pc < demo.progLen ∧
    demo.instrAt demo.pc = .instr (.jnz false .eax 0#32) ∧ labelled (.jnz false .eax 0#32) = false := by decide

theorem witness_StepSkipsLabelled : demo.advance.runState = .run ∧ demo.advance.pc < demo.progLen ∧
    demo.instrAt demo.advance.pc = .instr (.mov true .eax 8#32) ∧
    labelled (.mov true .eax 8#32) = true := by decide

/-- `demo` with the pc at a given address. -/
def demoAt (a : Addr) : State := { demo with pc := a }

theorem witness_StepIllegal : (demoAt 5#32).runState = .run ∧ (demoAt 5#32).pc < (demoAt 5#32).progLen ∧
    (demoAt 5#32).instrAt (demoAt 5#32).pc = .illegal .reservedOpcode := by decide

theorem witness_StepEndsRun : (demoAt 9#32).runState = .run ∧ (demoAt 9#32).pc = (demoAt 9#32).progLen := by
  decide

theorem witness_StoppedCoreStays : core0.runState ≠ .run ∧ demo.endRun.runState ≠ .run := by decide

theorem witness_StepAdvancesByOne : demo.runState = .run ∧ demo.pc < demo.progLen ∧
    (demoAt 8#32).pc < (demoAt 8#32).progLen := by decide

theorem witness_FaultsArePrecise : (demoAt 3#32).runState = .run ∧ (demoAt 3#32).hops = 0 ∧
    look (·.runState) (step (demoAt 3#32)) = some .fault := by decide

theorem demo_steps : ∃ t, step demo = .next t := step_next demo

theorem witness_StepKeepsProgram : ∃ t, step demo = .next t := demo_steps

theorem witness_OneEffectPerStep : (∃ t, step demo = .next t) ∧
    look (·.output) (step (demoAt 7#32)) = some [⟨.eax, 1#32⟩] := ⟨demo_steps, by decide⟩

theorem witness_PlacedWordRuns : labelled (.mov false .ecx 5#32) = false ∧
    look (·.regs.ecx) (step (State.reset.withFetchWord 64 0x0000000500000024)) = some 5#32 := by decide

theorem demo_inRange : demo.InRange :=
  ⟨by decide, by decide, by decide, by decide, by decide, by decide, by decide⟩

theorem core0_inRange : core0.InRange :=
  ⟨by decide, by decide, by decide, by decide, by decide, by decide, by decide⟩

theorem witness_StepKeepsInvariant : demo.Inv ∧ ∃ t, step demo = .next t :=
  ⟨⟨demo_inRange, demo_statusOk⟩, demo_steps⟩

theorem witness_HostKeepsInvariant : core0.Inv ∧
    hostMove (.loadWord 15 7#64) core0 = .done (core0.putWord 15 7#64) none :=
  ⟨⟨core0_inRange, core0_statusOk⟩, rfl⟩

theorem witness_ReachableMeetsInvariant : Params.wf ⟨16, 8⟩ = true ∧ Reachable ⟨16, 8⟩ core0 ∧
    Reachable ⟨16, 8⟩ core0.startRun :=
  ⟨by decide, .powerOn, .event (.host (.write 0x00 1#32)) .powerOn ⟨none, by decide⟩⟩

/-- A core in a run of the one-instruction program `mov EAX 2`, its label id 0 bound to it. -/
def small : State :=
  { core0 with prog := [(0, 0x0000000200000004#64)], progLen := 1#32, labels := [(0, 0#32)], runState := .run }

theorem witness_AssembledProgramFaults : small.runState = .run ∧ small.Assembled := by
  refine ⟨rfl, ⟨fun a ha => ?_, fun t d h => ?_⟩⟩
  · have ha' : a < 1#32 := ha
    have h0 : a = 0#32 := by bv_omega
    subst h0
    exact ⟨.mov false .eax 2#32, by decide⟩
  · have hl : (if t.toNat < 8 then Memory.find [(0, (0#32 : Addr))] t.toNat else none) = some d := h
    split at hl
    · simp only [Memory.find] at hl
      split at hl
      · cases hl; decide
      · cases hl
    · cases hl

theorem witness_EveryRunEnds : demo.Inv ∧ demo.runState = .run :=
  ⟨⟨demo_inRange, demo_statusOk⟩, rfl⟩

theorem witness_RunsDependOnImageOnly : SameImage demo (demo.enterFault .badTarget 2#32) ∧
    demo ≠ demo.enterFault .badTarget 2#32 := ⟨⟨rfl, rfl, rfl, rfl, rfl⟩, by decide⟩

theorem witness_EncodeDecode : decode 0x00000000000001AB#64 = .instr (.div true .ecx .edx) := by decide

theorem witness_DecodeFollowsOpcodeMap : decode 0x0000000000000015#64 = .instr (.out false .ebx) ∧
    opcodeMap[5]? = some ⟨"out", 0x5#64, 0xFFFFFFFFFFFFFF87#64⟩ := by decide

theorem witness_RenderReadsBack : TextOp.wf (.mov .eax (-2147483648)) = true ∧
    TextOp.wf (.jnz .eax "x:".toList) = true ∧ isName "a:b".toList = true := by decide

theorem witness_LabelTableOperations : LabelTable.getAddress [(['x'], 3)] ['x'] ≠ none ∧
    LabelTable.getAddress [(['x'], 3)] ['y'] = none := by decide

/-- W9's program. -/
def w9 : Text := "mov EAX 3\ntest: mov EAX 8\nmov ECX 5\njnz ECX test".toList

/-- W9's program translated. -/
def w9Program : Translation :=
  ⟨[⟨none, .mov .eax 3⟩, ⟨some "test".toList, .mov .eax 8⟩, ⟨none, .mov .ecx 5⟩,
    ⟨none, .jnz .ecx "test".toList⟩], [("test".toList, 1)]⟩

/-- W9's image, as the spec lists it. -/
def w9Image : Image :=
  ⟨[0x0000000300000004#64, 0x000000080000000C#64, 0x0000000500000024#64, 0x0000000000000026#64],
    [⟨true, 1#32⟩]⟩

theorem witness_TranslatedLabelsBound : translate w9 = .ok w9Program ∧
    w9Program.labels.getAddress "test".toList = some 1 ∧
    w9Program.program[1]? = some ⟨some "test".toList, .mov .eax 8⟩ := by decide

theorem witness_TranslatedOperandsInRange : translate w9 = .ok w9Program := by decide

theorem witness_FirstFailingLineStops :
    translateLines 1 ["mov EAX 1".toList, []] ⟨[], []⟩ = .ok ⟨[⟨none, .mov .eax 1⟩], []⟩ ∧
    tokens "foo EAX".toList ≠ [] ∧ readLine (tokens "foo EAX".toList) = .error .unknownOpcode := by decide

/-- T33's second line: its label is bound by the line before it. -/
theorem witness_FirstFailingLineStops_duplicate :
    translateLines 1 ["x: mov EAX 1".toList] ⟨[], []⟩ = .ok ⟨[⟨some ['x'], .mov .eax 1⟩], [(['x'], 0)]⟩ ∧
    readLine (tokens "x: mov EAX 2".toList) = .parts ⟨some ['x'], .mov .eax 2⟩ ∧
    Translation.append ⟨[⟨some ['x'], .mov .eax 1⟩], [(['x'], 0)]⟩ ⟨some ['x'], .mov .eax 2⟩ = none := by decide

theorem witness_LabelIdsDistinct : (labelNames w9Program.program).length ≤ 2 ^ 32 ∧
    labelNames w9Program.program = ["test".toList] := by decide

theorem witness_ImageBuilding : Params.progMax ⟨3, 8⟩ < w9Program.program.length ∧
    w9Program.program.length ≤ Params.progMax ⟨4, 0⟩ ∧
    Params.labelSlots ⟨4, 0⟩ < (labelNames w9Program.program).length ∧
    (labelNames w9Program.program).length ≤ Params.labelSlots ⟨4, 1⟩ ∧
    (labelNames w9Program.program)[0]? = some "test".toList ∧
    w9Program.labels.getAddress "test".toList = some 1 := by decide

/-- A program that jumps to a name it does not bind, and its image: that name's entry has `V` = 0 (R74). -/
theorem witness_ImageBuilding_unbound :
    (labelNames [⟨none, .jnz .eax ['x']⟩])[0]? = some ['x'] ∧ LabelTable.getAddress [] ['x'] = none ∧
    buildImage ⟨4, 1⟩ ⟨[⟨none, .jnz .eax ['x']⟩], []⟩ = .ok ⟨[0x0000000000000006#64], [⟨false, 0#32⟩]⟩ := by decide

theorem witness_BootGivesAssembledProgram : core0.InRange ∧ core0.runState ≠ .run ∧
    translate w9 = .ok w9Program ∧ buildImage core0.params w9Program = .ok w9Image :=
  ⟨core0_inRange, by decide, by decide, by decide⟩

/-- The core of `small` holds the program `mov EAX 2`. -/
theorem witness_BinaryLevelRefinesTextual :
    State.Holds { small with labels := [] } ⟨[⟨none, .mov .eax 2⟩], []⟩ := by
  refine ⟨by decide, fun a i h => ?_, fun name h => ?_, fun name a h => ?_⟩
  · cases a with
    | zero => cases h; decide
    | succ a => cases h
  · cases h
  · cases h

end Sys2Proof.Tests
end

section
/-! The state rules of 10_state.md: the register file's operations (R17) and the host's
accesses to `CTRL` (R28). -/

namespace Sys2Proof.Machine

/-! ### The register file -/

@[simp] theorem State.getReg_clearRegs (s : State) (r : Reg) : s.clearRegs.getReg r = 0#32 :=
  RegFile.get_zero r

theorem State.sameButRegs_setReg (s : State) (r : Reg) (v : Word) : SameButRegs s (s.setReg r v) := rfl

theorem State.sameButRegs_clearRegs (s : State) : SameButRegs s s.clearRegs := rfl

/-! ### `CTRL` -/

theorem State.writeCtrl_of_run {s : State} (v : Word) (h : s.runState = .run) : s.writeCtrl v = s :=
  if_neg fun ⟨_, hrun⟩ => hrun h

theorem State.writeCtrl_of_bit_clear (s : State) {v : Word} (h : v.getLsbD 0 = false) :
    s.writeCtrl v = s :=
  if_neg fun ⟨hbit, _⟩ => Bool.eq_false_iff.mp h hbit

theorem State.writeCtrl_starts {s : State} {v : Word} (hrun : s.runState ≠ .run)
    (hbit : v.getLsbD 0 = true) : s.writeCtrl v = s.startRun :=
  if_pos ⟨hbit, hrun⟩

theorem hostMove_read_ctrl (s : State) : hostMove (.read 0x00) s = .done s (some 0#32) := rfl

theorem hostMove_write_ctrl (s : State) (v : Word) :
    hostMove (.write 0x00 v) s = .done (s.writeCtrl v) none := rfl

/-- Settles O5: the host's write of `CTRL` is `writeCtrl`, whose branches are R28's cases. -/
theorem ctrlFields : Obligations.CtrlFields := by
  intro s v
  rw [hostMove_write_ctrl]
  refine ⟨hostMove_read_ctrl s, fun hrun => ?_, fun hbit => ?_, fun hrun hbit => ?_⟩
  · rw [State.writeCtrl_of_run v hrun]
  · rw [State.writeCtrl_of_bit_clear s hbit]
  · rw [State.writeCtrl_starts hrun hbit]

/-- Settles O12: the read-after-write laws of the register file, and that both operations replace
the register file alone. -/
theorem registerFileOperations : Obligations.RegisterFileOperations := fun s r v =>
  ⟨s.getReg_setReg_same r v, fun _ h => s.getReg_setReg_ne v h, s.getReg_clearRegs,
    s.sameButRegs_setReg r v, s.sameButRegs_clearRegs⟩

end Sys2Proof.Machine
end

section
/-! The opcode map and the decoder (30_encoding.md R55, R78): a masked word compared field by field,
and the rows of the map as the decoder's own conditions on the fields. -/

namespace Sys2Proof

/-! ### Words as their fields -/

theorem getLsbD_eq_of_extractLsb'_eq {w v : IWord} {a n i : Nat}
    (h : w.extractLsb' a n = v.extractLsb' a n) (hlo : a ≤ i) (hhi : i < a + n) :
    w.getLsbD i = v.getLsbD i := by
  have hbit := congrArg (fun x => x.getLsbD (i - a)) h
  have hlt : i - a < n := by omega
  simpa [hlt, Nat.add_sub_cancel' hlo] using hbit

/-- The fields of R52 leave out no bit. -/
theorem eq_iff_fields (w v : IWord) :
    w = v ↔ opcField w = opcField v ∧ labelField w = labelField v ∧ raField w = raField v ∧
      rbField w = rbField v ∧ rsvField w = rsvField v ∧ immField w = immField v := by
  refine ⟨fun h => by simp [h], fun ⟨hopc, hl, hra, hrb, hrsv, himm⟩ => ?_⟩
  apply BitVec.eq_of_getLsbD_eq
  intro i hi
  have hrange : i < 3 ∨ i = 3 ∨ (4 ≤ i ∧ i < 7) ∨ (7 ≤ i ∧ i < 10) ∨ (10 ≤ i ∧ i < 32) ∨ 32 ≤ i := by
    omega
  rcases hrange with h | rfl | ⟨h, h'⟩ | ⟨h, h'⟩ | ⟨h, h'⟩ | h
  · exact getLsbD_eq_of_extractLsb'_eq hopc (Nat.zero_le i) (by omega)
  · exact hl
  · exact getLsbD_eq_of_extractLsb'_eq hra h h'
  · exact getLsbD_eq_of_extractLsb'_eq hrb h h'
  · exact getLsbD_eq_of_extractLsb'_eq hrsv h h'
  · exact getLsbD_eq_of_extractLsb'_eq himm h hi

/-- A masked word has a pattern exactly when each of its masked fields has the pattern's field. -/
theorem and_eq_iff_fields (w m p : IWord) :
    w &&& m = p ↔ opcField w &&& opcField m = opcField p ∧
      (labelField w && labelField m) = labelField p ∧ raField w &&& raField m = raField p ∧
      rbField w &&& rbField m = rbField p ∧ rsvField w &&& rsvField m = rsvField p ∧
      immField w &&& immField m = immField p := by
  rw [eq_iff_fields]
  simp only [opcField, labelField, raField, rbField, rsvField, immField, BitVec.extractLsb'_and,
    BitVec.getLsbD_and]

/-! ### Rows of the opcode map -/

/-- The conditions on a word's fields under which the decoder gives the instruction of row `k` of the
opcode map: its opcode, no reserved bit, and 0 in each field the instruction does not use (R55). -/
structure FitsRow (w : IWord) (k : Nat) : Prop where
  opc : (opcField w).toNat = k
  rb : 4 ≤ k → rbField w = 0#3
  rsv : rsvField w = 0#22
  imm : k ≠ 4 → k ≠ 6 → immField w = 0#32

theorem fitsRow_iff {w : IWord} {k : Nat} :
    FitsRow w k ↔ (opcField w).toNat = k ∧ (4 ≤ k → rbField w = 0#3) ∧ rsvField w = 0#22 ∧
      (k ≠ 4 → k ≠ 6 → immField w = 0#32) :=
  ⟨fun ⟨hopc, hrb, hrsv, himm⟩ => ⟨hopc, hrb, hrsv, himm⟩,
    fun ⟨hopc, hrb, hrsv, himm⟩ => ⟨hopc, hrb, hrsv, himm⟩⟩

theorem FitsRow.unique {w : IWord} {j k : Nat} (hj : FitsRow w j) (hk : FitsRow w k) : j = k :=
  hj.opc.symm.trans hk.opc

theorem rowIndex_lt (i : Instr) : rowIndex i < opcodeMap.length := by
  cases i <;> simp [rowIndex, opcodeMap]

theorem rowIndex_rrInstr {opc : BitVec 3} (h : opc.toNat < 4) (l : Bool) (ra rb : Reg) :
    rowIndex (rrInstr opc l ra rb) = opc.toNat := by
  have hopc : opc.toNat = 0 ∨ opc.toNat = 1 ∨ opc.toNat = 2 ∨ opc.toNat = 3 := by omega
  rcases hopc with hopc | hopc | hopc | hopc <;> simp only [rrInstr, hopc, rowIndex]

/-- R78's mask and match compare just the fields the decoder checks. -/
theorem and_mask_eq_pattern_iff {k : Nat} {r : OpRow} (hr : opcodeMap[k]? = some r) (w : IWord) :
    w &&& r.mask = r.pattern ↔ FitsRow w k := by
  have hk : k < 7 := (List.getElem?_eq_some_iff.mp hr).1
  have h3 : ∀ x : BitVec 3, x &&& 7#3 = x := fun _ => BitVec.and_allOnes
  have h22 : ∀ x : BitVec 22, x &&& 0x3FFFFF#22 = x := fun _ => BitVec.and_allOnes
  have h32 : ∀ x : BitVec 32, x &&& 0xFFFFFFFF#32 = x := fun _ => BitVec.and_allOnes
  rw [and_eq_iff_fields]
  interval_cases k <;> cases hr <;>
    simp [fitsRow_iff, opcField, labelField, raField, rbField, rsvField, immField, h3, h22, h32, BitVec.toNat_eq]

theorem fitsRow_of_decode {w : IWord} {i : Instr} (h : decode w = .instr i) :
    FitsRow w (rowIndex i) := by
  simp only [decode] at h
  split_ifs at h with h7 hrsv hrr himm hrb h4 h5 himm
  all_goals cases h
  · rw [rowIndex_rrInstr hrr]
    exact ⟨rfl, by omega, not_not.mp hrsv, fun _ _ => not_not.mp himm⟩
  · exact ⟨by rw [h4]; rfl, fun _ => not_not.mp hrb, not_not.mp hrsv, fun h _ => absurd rfl h⟩
  · exact ⟨by rw [h5]; rfl, fun _ => not_not.mp hrb, not_not.mp hrsv, fun _ _ => not_not.mp himm⟩
  · refine ⟨?_, fun _ => not_not.mp hrb, not_not.mp hrsv, fun _ h => absurd rfl h⟩
    simp only [BitVec.toNat_eq, BitVec.toNat_ofNat] at h4 h5 h7
    simp only [rowIndex]
    omega

/-- Every check of the decoder that refuses a word contradicts a condition of the row. -/
theorem decode_of_fitsRow {w : IWord} {k : Nat} (hk : k < 7) (h : FitsRow w k) :
    ∃ i, decode w = .instr i := by
  obtain ⟨rfl, hrb, hrsv, himm⟩ := h
  rcases hd : decode w with i | why
  · exact ⟨i, rfl⟩
  · simp only [decode] at hd
    split_ifs at hd with h7 hrsv' hrr himm' hrb' h4 h5 himm'
    · rw [h7] at hk
      exact absurd hk (by decide)
    · exact absurd hrsv hrsv'
    · exact absurd (himm (by omega) (by omega)) himm'
    · exact absurd (hrb (Nat.not_lt.mp hrr)) hrb'
    · exact absurd (himm (by rw [h5]; decide) (by rw [h5]; decide)) himm'

/-- Settles O48: both sides are `FitsRow`, for the row of the instruction's own opcode. -/
theorem decodeFollowsOpcodeMap : Obligations.DecodeFollowsOpcodeMap := by
  refine fun w => ⟨⟨fun ⟨i, hi⟩ => ?_, fun ⟨r, hr, hsel⟩ => ?_⟩, fun i hi k r hr => ?_⟩
  · have hrow := List.getElem?_eq_getElem (rowIndex_lt i)
    exact ⟨_, List.mem_of_getElem? hrow, (and_mask_eq_pattern_iff hrow w).mpr (fitsRow_of_decode hi)⟩
  · obtain ⟨k, hk⟩ := List.mem_iff_getElem?.mp hr
    exact decode_of_fitsRow (List.getElem?_eq_some_iff.mp hk).1 ((and_mask_eq_pattern_iff hk w).mp hsel)
  · have hown := fitsRow_of_decode hi
    rw [and_mask_eq_pattern_iff hr w]
    exact ⟨fun h => h.unique hown, fun h => h ▸ hown⟩

end Sys2Proof
end

section
/-! Reading a canonical rendering back (30_encoding.md R58, R59, R64, R75, R76): the tokens of a line
joined by spaces, the literals and names a token stands for, and the line's checks on them. -/

namespace Sys2Proof.Machine

/-! ### Tokens -/

theorem isName_iff {t : Text} : isName t = true ↔ t ≠ [] ∧ ∀ c ∈ t, isSpace c = false := by
  simp [isName]

theorem tokensFrom_append {t : Text} (ht : ∀ c ∈ t, isSpace c = false) (cur rest : Text) :
    tokensFrom cur (t ++ rest) = tokensFrom (cur ++ t) rest := by
  induction t generalizing cur with
  | nil => simp
  | cons c cs ih =>
    obtain ⟨hc, hcs⟩ := List.forall_mem_cons.mp ht
    simp [tokensFrom, hc, ih hcs]

theorem tokensFrom_space {cur : Text} (h : cur ≠ []) (rest : Text) :
    tokensFrom cur (' ' :: rest) = cur :: tokensFrom [] rest := by
  have hspace : isSpace ' ' = true := by decide
  simp [tokensFrom, hspace, h]

/-- Names with one space between them are the tokens of their line (R58, R75). -/
theorem tokens_joinTokens {ts : List Text} (h : ∀ t ∈ ts, isName t = true) :
    tokens (joinTokens ts) = ts := by
  induction ts using joinTokens.induct with
  | case1 => rfl
  | case2 t =>
    obtain ⟨hne, hsp⟩ := isName_iff.mp (h t List.mem_cons_self)
    have happ := tokensFrom_append hsp [] []
    rw [List.append_nil, List.nil_append] at happ
    simp [joinTokens, tokens, happ, tokensFrom, hne]
  | case3 t u ts ih =>
    obtain ⟨hne, hsp⟩ := isName_iff.mp (h t List.mem_cons_self)
    have ih := ih fun x hx => h x (List.mem_cons_of_mem t hx)
    rw [tokens] at ih ⊢
    rw [joinTokens, tokensFrom_append hsp, List.nil_append, tokensFrom_space hne, ih]

/-! ### Mnemonics and registers -/

@[simp] theorem readMnemonic_mnemonicText (m : Mnemonic) : readMnemonic (mnemonicText m) = some m := by
  cases m <;> decide

@[simp] theorem readReg_regText (r : Reg) : readReg (regText r) = some r := by
  cases r <;> decide

theorem isName_mnemonicText (m : Mnemonic) : isName (mnemonicText m) = true := by
  cases m <;> decide

theorem isName_regText (r : Reg) : isName (regText r) = true := by
  cases r <;> decide

/-! ### Literals -/

/-- An ASCII digit is read as its value, and is neither whitespace nor a sign (R58, R59). -/
theorem digitChar_spec {d : Nat} (hd : d < 10) :
    digitVal (digitChar d) = some d ∧ isSpace (digitChar d) = false ∧ digitChar d ≠ '+' ∧
      digitChar d ≠ '-' := by
  revert d; decide

theorem readDigits_decimalDigits {fuel n : Nat} (h : n < fuel) (acc : Text) :
    readDigits 0 (decimalDigits fuel n acc) = readDigits n acc := by
  induction fuel generalizing n acc with
  | zero => exact absurd h (Nat.not_lt_zero n)
  | succ fuel ih =>
    rw [decimalDigits]
    split_ifs with hn
    · simp [readDigits, (digitChar_spec hn).1]
    · rw [ih (by omega), readDigits, (digitChar_spec (Nat.mod_lt n (by decide))).1]
      simp only
      rw [Nat.div_add_mod']

/-- What is written before `acc` are ASCII digits, at least one of them. -/
theorem decimalDigits_eq_append (fuel n : Nat) (acc : Text) :
    ∃ ds : Text, decimalDigits fuel n acc = ds ++ acc ∧ (fuel ≠ 0 → ds ≠ []) ∧
      ∀ c ∈ ds, ∃ d < 10, c = digitChar d := by
  induction fuel generalizing n acc with
  | zero => exact ⟨[], rfl, fun h => absurd rfl h, fun _ hc => absurd hc List.not_mem_nil⟩
  | succ fuel ih =>
    rw [decimalDigits]
    split_ifs with hn
    · exact ⟨[digitChar n], rfl, by simp, fun c hc => ⟨n, hn, List.mem_singleton.mp hc⟩⟩
    · obtain ⟨ds, heq, -, hds⟩ := ih (n / 10) (digitChar (n % 10) :: acc)
      refine ⟨ds ++ [digitChar (n % 10)], by simp [heq], by simp, fun c hc => ?_⟩
      rcases List.mem_append.mp hc with hc | hc
      · exact hds c hc
      · exact ⟨n % 10, Nat.mod_lt n (by decide), List.mem_singleton.mp hc⟩

theorem decimalNat_spec (n : Nat) :
    decimalNat n ≠ [] ∧ ∀ c ∈ decimalNat n, ∃ d < 10, c = digitChar d := by
  obtain ⟨ds, heq, hne, hds⟩ := decimalDigits_eq_append (n + 1) n []
  rw [decimalNat, heq, List.append_nil]
  exact ⟨hne n.succ_ne_zero, hds⟩

theorem readNat_decimalNat (n : Nat) : readNat (decimalNat n) = some n := by
  rw [readNat, if_neg (decimalNat_spec n).1, decimalNat, readDigits_decimalDigits n.lt_succ_self, readDigits]

/-- The digits without a sign are read as a literal without a sign. -/
theorem readSigned_decimalNat (n : Nat) : readSigned (decimalNat n) = some (n : Int) := by
  obtain ⟨hne, hdigits⟩ := decimalNat_spec n
  have hread := readNat_decimalNat n
  cases htext : decimalNat n with
  | nil => exact absurd htext hne
  | cons c ds =>
    rw [htext] at hread hdigits
    obtain ⟨d, hd, rfl⟩ := hdigits c List.mem_cons_self
    obtain ⟨-, -, hplus, hminus⟩ := digitChar_spec hd
    rw [readSigned, if_neg hplus, if_neg hminus, hread]
    rfl

theorem readSigned_decimal (n : Int) : readSigned (decimal n) = some n := by
  rw [decimal]
  split_ifs with hn
  · have hminus : ('-' : Char) ≠ '+' := by decide
    have hneg : -(n.natAbs : Int) = n := by omega
    rw [readSigned, if_neg hminus, if_pos rfl, readNat_decimalNat]
    exact congrArg some hneg
  · rw [readSigned_decimalNat, Int.natAbs_of_nonneg (not_lt.mp hn)]

theorem readLiteral_decimal {n : Int} (h : inRange n = true) : readLiteral (decimal n) = some n := by
  rw [readLiteral, readSigned_decimal]
  exact if_pos h

theorem isName_decimalNat (n : Nat) : isName (decimalNat n) = true := by
  obtain ⟨hne, hdigits⟩ := decimalNat_spec n
  refine isName_iff.mpr ⟨hne, fun c hc => ?_⟩
  obtain ⟨d, hd, rfl⟩ := hdigits c hc
  exact (digitChar_spec hd).2.1

theorem isName_append {t u : Text} (ht : isName t = true) (hu : isName u = true) :
    isName (t ++ u) = true := by
  obtain ⟨hne, ht⟩ := isName_iff.mp ht
  obtain ⟨-, hu⟩ := isName_iff.mp hu
  exact isName_iff.mpr ⟨by simp [hne], fun c hc => (List.mem_append.mp hc).elim (ht c) (hu c)⟩

theorem isName_decimal (n : Int) : isName (decimal n) = true := by
  rw [decimal]
  split_ifs
  · exact isName_append (t := ['-']) (by decide) (isName_decimalNat _)
  · exact isName_decimalNat _

/-! ### Lines -/

/-- The mnemonic of an operation. -/
def TextOp.mnemonic : TextOp → Mnemonic
  | .add _ _ => .add
  | .sub _ _ => .sub
  | .mul _ _ => .mul
  | .div _ _ => .div
  | .mov _ _ => .mov
  | .out _ => .out
  | .jnz _ _ => .jnz

/-- The operand tokens of an operation's rendering (R75). -/
def TextOp.operands : TextOp → List Text
  | .add ra rb => [regText ra, regText rb]
  | .sub ra rb => [regText ra, regText rb]
  | .mul ra rb => [regText ra, regText rb]
  | .div ra rb => [regText ra, regText rb]
  | .mov ra n => [regText ra, decimal n]
  | .out ra => [regText ra]
  | .jnz ra t => [regText ra, t]

theorem opTokens_eq (op : TextOp) : opTokens op = mnemonicText op.mnemonic :: op.operands := by
  cases op <;> rfl

theorem length_opTokens_le (op : TextOp) : (opTokens op).length ≤ 3 := by
  cases op <;> simp [opTokens]

theorem isName_of_mem_operands {op : TextOp} (h : op.wf = true) :
    ∀ t ∈ op.operands, isName t = true := by
  cases op with
  | mov ra n => simp [TextOp.operands, isName_regText, isName_decimal]
  | jnz ra t => simpa [TextOp.operands, TextOp.wf, isName_regText] using h
  | _ => simp [TextOp.operands, isName_regText]

theorem readOperands_operands {op : TextOp} (h : op.wf = true) :
    readOperands op.mnemonic op.operands = .op op := by
  cases op with
  | mov ra n => simp [TextOp.mnemonic, TextOp.operands, readOperands, readRI, readLiteral_decimal h]
  | _ => simp [TextOp.mnemonic, TextOp.operands, readOperands, readRR, readR, readRL]

theorem readAfterLabel_opTokens {op : TextOp} (h : op.wf = true) (label : Option Text) :
    readAfterLabel label (opTokens op) = .parts ⟨label, op⟩ := by
  simp [opTokens_eq, readAfterLabel, readOp, readOperands_operands h]

theorem attachedLabel_mnemonicText (m : Mnemonic) : attachedLabel (mnemonicText m) = none := by
  cases m <;> decide

theorem attachedLabel_append_colon (name : Text) : attachedLabel (name ++ [':']) = some name := by
  simp [attachedLabel]

/-- A line of at most four tokens whose first carries no label is read as opcode and operands (R64). -/
theorem readLine_of_unlabelled {tok : Text} {args : List Text} (hlen : args.length ≤ 3)
    (h : attachedLabel tok = none) : readLine (tok :: args) = readAfterLabel none (tok :: args) := by
  have hfits : ¬4 < (tok :: args).length := by simp; omega
  rw [readLine, if_neg hfits]
  simp only [h]

/-- A line of at most four tokens whose first carries a name is read as opcode and operands after it (R64). -/
theorem readLine_of_labelled {tok name : Text} {rest : List Text} (hlen : rest.length ≤ 3)
    (h : attachedLabel tok = some name) (hne : name ≠ []) :
    readLine (tok :: rest) = readAfterLabel (some name) rest := by
  have hfits : ¬4 < (tok :: rest).length := by simp; omega
  rw [readLine, if_neg hfits]
  simp only [h, if_neg hne]

/-- The tokens of a canonical rendering: the label name with its `:`, then the operation's. -/
def lineTokens (i : TextInstr) : List Text :=
  match i.label with
  | none => opTokens i.op
  | some name => (name ++ [':']) :: opTokens i.op

theorem render_eq_joinTokens (i : TextInstr) : render i = joinTokens (lineTokens i) := by
  obtain ⟨_ | name, op⟩ := i
  · rfl
  · simp [render, renderOp, lineTokens, opTokens_eq, joinTokens]

theorem isName_of_mem_lineTokens {i : TextInstr} (hop : i.op.wf = true)
    (hlabel : ∀ name, i.label = some name → isName name = true) :
    ∀ t ∈ lineTokens i, isName t = true := by
  have hops : ∀ t ∈ opTokens i.op, isName t = true := by
    rw [opTokens_eq]
    exact List.forall_mem_cons.mpr ⟨isName_mnemonicText _, isName_of_mem_operands hop⟩
  obtain ⟨_ | name, op⟩ := i
  · exact hops
  · exact List.forall_mem_cons.mpr ⟨isName_append (hlabel name rfl) (by decide), hops⟩

theorem readLine_lineTokens {i : TextInstr} (hop : i.op.wf = true)
    (hlabel : ∀ name, i.label = some name → isName name = true) :
    readLine (lineTokens i) = .parts ⟨i.label, i.op⟩ := by
  have hafter := readAfterLabel_opTokens hop i.label
  have hlen := length_opTokens_le i.op
  obtain ⟨_ | name, op⟩ := i
  · rw [opTokens_eq] at hafter hlen
    rw [lineTokens, opTokens_eq,
      readLine_of_unlabelled (Nat.le_of_succ_le hlen) (attachedLabel_mnemonicText _), hafter]
  · have hne : name ≠ [] := (isName_iff.mp (hlabel name rfl)).1
    rw [lineTokens, readLine_of_labelled hlen (attachedLabel_append_colon name) hne, hafter]

/-- Settles O51: a canonical rendering is its tokens with one space between them, each of them a name,
and the line's checks accept them. -/
theorem renderReadsBack : Obligations.RenderReadsBack := by
  refine ⟨fun i hop hlabel => ?_, fun i j => decide_eq_true_iff⟩
  rw [render_eq_joinTokens, tokens_joinTokens (isName_of_mem_lineTokens hop hlabel),
    readLine_lineTokens hop hlabel]

end Sys2Proof.Machine
end

section
/-! The ALU family (40_alu.md R79 to R84): what an RR operation writes and leaves unchanged, the
encoding of an instruction as a word of its own row (30_encoding.md R78), and when `div` faults. -/

namespace Sys2Proof

/-! ### The words of instructions -/

theorem fitsRow_encode (i : Instr) : FitsRow (encode i) (rowIndex i) := by
  cases i <;> simp [fitsRow_iff, encode, rowIndex]

/-- The word of an instruction has the mask and match of the instruction's row (R73, R78). -/
theorem encode_and_mask_eq_pattern (i : Instr) :
    encode i &&& (opcodeMap[rowIndex i]'(rowIndex_lt i)).mask =
      (opcodeMap[rowIndex i]'(rowIndex_lt i)).pattern :=
  (and_mask_eq_pattern_iff (List.getElem?_eq_getElem (rowIndex_lt i)) _).mpr (fitsRow_encode i)

end Sys2Proof

namespace Sys2Proof.Machine

/-! ### Writing the result -/

/-- An RR operation writes its result, of the operands' values before the write, to `ra` and nothing
else (R79). -/
theorem State.writeRR_spec (f : Word → Word → Word) (ra rb : Reg) (s : State) :
    (s.writeRR f ra rb).getReg ra = f (s.getReg ra) (s.getReg rb) ∧
      (∀ r, r ≠ ra → (s.writeRR f ra rb).getReg r = s.getReg r) ∧
      SameButRegs s (s.writeRR f ra rb) := by
  rw [State.writeRR_eq]
  exact ⟨s.getReg_setReg_same ra _, fun _ h => s.getReg_setReg_ne _ h, s.sameButRegs_setReg ra _⟩

/-- Settles O13: `add` is the RR write of the sum. -/
theorem addResult : Obligations.AddResult := fun l ra rb s =>
  ⟨⟨_, rfl, s.writeRR_spec aluAdd ra rb⟩, encode_and_mask_eq_pattern (.add l ra rb)⟩

/-- Settles O14: `sub` is the RR write of the difference. -/
theorem subResult : Obligations.SubResult := fun l ra rb s =>
  ⟨⟨_, rfl, s.writeRR_spec aluSub ra rb⟩, encode_and_mask_eq_pattern (.sub l ra rb)⟩

/-- Settles O15: `mul` is the RR write of the product. -/
theorem mulResult : Obligations.MulResult := fun l ra rb s =>
  ⟨⟨_, rfl, s.writeRR_spec aluMul ra rb⟩, encode_and_mask_eq_pattern (.mul l ra rb)⟩

/-! ### Division -/

/-- The model's quotient is Lean's truncating one: sign and absolute value agree, the sign being lost
only where the quotient of the absolute values is 0. -/
theorem tdiv_eq_intTdiv (a b : Int) : tdiv a b = Int.tdiv a b := by
  rw [tdiv, ← Int.sign_mul_natAbs (Int.tdiv a b), Int.sign_tdiv, Int.natAbs_tdiv]
  split_ifs with hlt
  · rw [Nat.div_eq_of_lt hlt, Nat.cast_zero, mul_zero, zero_mul]
  · rfl

theorem exec_div_of_ne_zero (l : Bool) {ra rb : Reg} {s : State} (ha : s.getReg ra ≠ 0#32)
    (hb : s.getReg rb ≠ 0#32) : exec (.div l ra rb) s = .next (s.writeRR aluDiv ra rb) :=
  congrArg settle (if_neg fun h => ((divFaults_iff _ _).mp h).elim ha hb)

theorem exec_div_of_zero (l : Bool) {ra rb : Reg} {s : State}
    (h : s.getReg ra = 0#32 ∨ s.getReg rb = 0#32) :
    exec (.div l ra rb) s = .next (s.enterFault .divideByZero s.pc) :=
  congrArg settle (if_pos ((divFaults_iff _ _).mpr h))

/-- Settles O16: the fault check of `div` parts the two cases; past it, `div` is the RR write of the
quotient. -/
theorem divResult : Obligations.DivResult := by
  refine fun l ra rb s => ⟨fun ha hb => ?_, exec_div_of_zero l, encode_and_mask_eq_pattern (.div l ra rb)⟩
  rw [← tdiv_eq_intTdiv]
  exact ⟨_, exec_div_of_ne_zero l ha hb, s.writeRR_spec aluDiv ra rb⟩

end Sys2Proof.Machine
end

section
/-! The move and output family (41_move_output.md R86, R87): the literals a token stands for and the
lines of `mov` the translator accepts and refuses (30_encoding.md R59, R64, R67, R70). -/

namespace Sys2Proof.Machine

/-! ### Literals in and out of range -/

theorem inRange_iff {n : Int} : inRange n = true ↔ -2147483648 ≤ n ∧ n ≤ 2147483647 := by
  simp [inRange]

theorem toInt_ofInt_of_inRange {n : Int} (h : inRange n = true) : (BitVec.ofInt 32 n).toInt = n := by
  obtain ⟨hlo, hhi⟩ := inRange_iff.mp h
  exact BitVec.toInt_ofInt_eq_self (by decide) hlo (Int.lt_add_one_iff.mpr hhi)

theorem readLiteral_eq_some_iff {tok : Text} {n : Int} :
    readLiteral tok = some n ↔ readSigned tok = some n ∧ inRange n = true := by
  rw [readLiteral]
  cases readSigned tok with
  | none => simp
  | some m =>
    simp only [Option.ite_none_right_eq_some, Option.some.injEq]
    exact ⟨fun ⟨hm, hmn⟩ => ⟨hmn, hmn ▸ hm⟩, fun ⟨hmn, hn⟩ => ⟨hmn ▸ hn, hmn⟩⟩

/-- A token is no literal when it is no signed number, or one whose value is out of range. -/
theorem readLiteral_eq_none {tok : Text}
    (h : readSigned tok = none ∨ ∃ v, readSigned tok = some v ∧ (v < -2147483648 ∨ 2147483647 < v)) :
    readLiteral tok = none := by
  refine Option.eq_none_iff_forall_ne_some.mpr fun n hn => ?_
  obtain ⟨hread, hrange⟩ := readLiteral_eq_some_iff.mp hn
  obtain ⟨hlo, hhi⟩ := inRange_iff.mp hrange
  rcases h with hnone | ⟨v, hv, hout⟩
  · exact Option.some_ne_none n (hread.symm.trans hnone)
  · have hvn : v = n := Option.some.inj (hv.symm.trans hread)
    omega

/-! ### The lines of `mov` -/

theorem readAfterLabel_of_op {tok : Text} {args : List Text} {op : TextOp}
    (h : readOp tok args = .op op) (label : Option Text) :
    readAfterLabel label (tok :: args) = .parts ⟨label, op⟩ := by
  simp only [readAfterLabel, h]

theorem readAfterLabel_of_error {tok : Text} {args : List Text} {e : AsmError}
    (h : readOp tok args = .error e) (label : Option Text) :
    readAfterLabel label (tok :: args) = .error e := by
  simp only [readAfterLabel, h]

theorem readLine_unlabelled_mov (x y : Text) :
    readLine ["mov".toList, x, y] = readAfterLabel none ["mov".toList, x, y] :=
  readLine_of_unlabelled (Nat.le_succ 2) (attachedLabel_mnemonicText .mov)

theorem readLine_labelled_mov {name : Text} (hne : name ≠ []) (x y : Text) :
    readLine [name ++ [':'], "mov".toList, x, y] = readAfterLabel (some name) ["mov".toList, x, y] :=
  readLine_of_labelled le_rfl (attachedLabel_append_colon name) hne

/-- A line of `mov`, labelled or not, is read as opcode and operands (R64). -/
theorem readLine_mov {toks : List Text} {x y : Text}
    (h : toks = ["mov".toList, x, y] ∨
      ∃ name, name ≠ [] ∧ toks = [name ++ [':'], "mov".toList, x, y]) :
    ∃ label, readLine toks = readAfterLabel label ["mov".toList, x, y] := by
  rcases h with rfl | ⟨name, hne, rfl⟩
  · exact ⟨none, readLine_unlabelled_mov x y⟩
  · exact ⟨some name, readLine_labelled_mov hne x y⟩

theorem readRI_of_literal (mk : Reg → Int → TextOp) {x y : Text} {ra : Reg} {n : Int}
    (hx : readReg x = some ra) (hy : readLiteral y = some n) : readRI mk x y = .op (mk ra n) := by
  simp only [readRI, hx, hy]

theorem readRI_of_no_literal (mk : Reg → Int → TextOp) {x y : Text} {ra : Reg}
    (hx : readReg x = some ra) (hy : readLiteral y = none) :
    readRI mk x y = .error .invalidIntegerLiteral := by
  simp only [readRI, hx, hy]

/-- The first line that fails its own checks stops the translation with its number (R70). -/
theorem translateLines_of_error {ln : Text} {e : AsmError} (hne : tokens ln ≠ [])
    (h : readLine (tokens ln) = .error e) (n : Nat) (after : List Text) (start : Translation) :
    translateLines n (ln :: after) start = .error e n := by
  rw [translateLines, if_neg hne]
  simp only [h]

/-! ### The two instructions -/

/-- The RI form writes its immediate to `ra` and nothing else (R54). -/
theorem State.writeRI_spec (ra : Reg) (imm : Word) (s : State) :
    (s.writeRI ra imm).getReg ra = imm ∧ (∀ r, r ≠ ra → (s.writeRI ra imm).getReg r = s.getReg r) ∧
      SameButRegs s (s.writeRI ra imm) := by
  rw [State.writeRI_eq]
  exact ⟨s.getReg_setReg_same ra imm, fun _ h => s.getReg_setReg_ne imm h, s.sameButRegs_setReg ra imm⟩

/-- Settles O19: `mov` is one register write. Its lines, labelled or not, are read as one register and
one literal, and a literal is a signed number in range. -/
theorem movResult : Obligations.MovResult := by
  refine fun l ra imm s => ⟨⟨_, rfl, s.writeRI_spec ra imm⟩, encode_and_mask_eq_pattern (.mov l ra imm),
    immField_packWord _ _ _ _ _, fun n hlo hhi => toInt_ofInt_of_inRange (inRange_iff.mpr ⟨hlo, hhi⟩),
    fun ln x y n after start hx hline hy => ?_, fun x y v hx hy hlo hhi => ?_⟩
  · have hop : readOp "mov".toList [x, y] = .error .invalidIntegerLiteral :=
      readRI_of_no_literal .mov hx (readLiteral_eq_none hy)
    obtain ⟨label, hread⟩ := readLine_mov hline
    rw [readAfterLabel_of_error hop] at hread
    have hne : tokens ln ≠ [] := by rcases hline with h | ⟨_, _, h⟩ <;> simp [h]
    exact ⟨hread, translateLines_of_error hne hread n after start⟩
  · have hop : readOp "mov".toList [x, y] = .op (.mov ra v) :=
      readRI_of_literal .mov hx (readLiteral_eq_some_iff.mpr ⟨hy, inRange_iff.mpr ⟨hlo, hhi⟩⟩)
    exact ⟨(readLine_unlabelled_mov x y).trans (readAfterLabel_of_op hop none),
      fun name hne => (readLine_labelled_mov hne x y).trans (readAfterLabel_of_op hop (some name))⟩

/-- Settles O20: `out` is one record sent, of the register and the value read from it. -/
theorem outResult : Obligations.OutResult := fun l ra _ =>
  ⟨rfl, encode_and_mask_eq_pattern (.out l ra)⟩

end Sys2Proof.Machine
end

section
/-! The main loop's tests before `Exec` (42_control_transfer.md R90, R91): what a fetched instruction
leads to, and that the labelled one is skipped. -/

namespace Sys2Proof.Machine

/-- Below `PROG_LEN` with a legal word at `pc`, the label bit alone decides between skip and execution
(R90, R91). -/
theorem front_of_instr {s : State} {i : Instr} (hrun : s.runState = .run) (hpc : s.pc < s.progLen)
    (hi : s.instrAt s.pc = .instr i) : front s = if labelled i then .skips else .runs i := by
  rw [front, if_pos hrun, if_neg (BitVec.not_le.2 hpc)]
  simp only [hi]

theorem step_of_front_skips {s : State} (h : front s = .skips) : step s = .next s.advance := by
  simp only [step, h]

/-- Settles O30: the label bit makes the step's tests choose the skip, and a skip is the advance of the
pc alone. -/
theorem stepSkipsLabelled : Obligations.StepSkipsLabelled := by
  intro s i hrun hpc hi hlab
  have hfront : front s = .skips := (front_of_instr hrun hpc hi).trans (if_pos hlab)
  exact step_of_front_skips hfront

end Sys2Proof.Machine
end

section
/-! Power-on reset and the start of a run (70_reset_and_hazards.md R112, R113): the two moves that
clear the core, and what each of them leaves. -/

namespace Sys2Proof.Machine

theorem State.getReg_of_regs_zero {s : State} (h : s.regs = RegFile.zero) (r : Reg) :
    s.getReg r = 0#32 := by
  rw [State.getReg, h, RegFile.get_zero]

/-- With no id bound, every lookup answers `Unbound`, inside `LABEL_SLOTS` and beyond (R26). -/
theorem State.labelLookup_of_labels_nil {s : State} (h : s.labels = []) (t : LabelId) :
    s.labelLookup t = none := by
  unfold State.labelLookup
  split
  · rw [h, Memory.find]
  · rfl

/-- A first power-on and a later one give the same core, up to what the sink outside it has received. -/
theorem State.eq_resetFor_withOutput {s : State}
    (h : (∃ p n, s = State.resetFor p n) ∨ ∃ s0 : State, s = s0.powerOn) :
    ∃ p n o, s = { State.resetFor p n with output := o } := by
  obtain ⟨p, n, rfl⟩ | ⟨s0, rfl⟩ := h
  · exact ⟨p, n, [], rfl⟩
  · exact ⟨s0.params, s0.powerOns + 1, s0.output, rfl⟩

/-- Settles O1: either power-on is `resetFor` up to the output, with its register file zero and its
label table empty. -/
theorem powerOnResetValues : Obligations.PowerOnResetValues := by
  intro s h
  obtain ⟨p, n, o, rfl⟩ := State.eq_resetFor_withOutput h
  exact ⟨State.getReg_of_regs_zero (State.resetFor_regs p n), State.resetFor_pc p n,
    State.resetFor_hops p n, State.resetFor_progLen p n,
    State.labelLookup_of_labels_nil (State.resetFor_labels p n), State.resetFor_runState p n,
    State.resetFor_cause p n, State.resetFor_faultPc p n, State.resetFor_faultAddr p n,
    hostMove_read_ctrl _⟩

/-- Settles O4: outside RUN, a write of `CTRL` with `START` set is `startRun`, whose fields are R113's. -/
theorem startOfRun : Obligations.StartOfRun := by
  intro s v hrun hbit
  have hmove : hostMove (.write 0x00 v) s = .done s.startRun none := by
    rw [hostMove_write_ctrl, State.writeCtrl_starts hrun hbit]
  exact ⟨s.startRun, hmove, State.getReg_of_regs_zero s.startRun_regs, s.startRun_pc,
    s.startRun_cause, s.startRun_faultPc, s.startRun_faultAddr, s.startRun_hops, s.startRun_runState,
    s.startRun_prog, s.startRun_progLen, s.startRun_labels, s.startRun_output, s.startRun_params,
    s.startRun_powerOns⟩

end Sys2Proof.Machine
end

section
/-! Encoder and decoder are inverse to each other (30_encoding.md R55, R73), and a word's bytes read
back (20_memory.md R39). -/

namespace Sys2Proof

/-! ### Decoding what was encoded -/

theorem decode_packWord_rr {opc : BitVec 3} (hopc : opc.toNat < 4) (l : Bool) (ra rb : Reg) :
    decode (packWord 0#32 (regNum rb) (regNum ra) l opc) = .instr (rrInstr opc l ra rb) := by
  have h7 : opc ≠ 7#3 := by
    rintro rfl
    exact absurd hopc (by decide)
  simp [decode, h7, hopc]

/-- Settles O46: the decoder's fields of a packed word are the ones it was packed from, and the word of
an instruction has the opcode of its row. -/
theorem decodeEncode : Obligations.DecodeEncode := by
  intro i
  cases i with
  | add l ra rb => exact decode_packWord_rr (by decide) l ra rb
  | sub l ra rb => exact decode_packWord_rr (by decide) l ra rb
  | mul l ra rb => exact decode_packWord_rr (by decide) l ra rb
  | div l ra rb => exact decode_packWord_rr (by decide) l ra rb
  | mov l ra imm => simp [decode, encode]
  | out l ra => simp [decode, encode]
  | jnz l ra t => simp [decode, encode]

/-! ### Encoding what was decoded -/

theorem encode_rrInstr {opc : BitVec 3} (hopc : opc.toNat < 4) (l : Bool) (ra rb : Reg) :
    encode (rrInstr opc l ra rb) = packWord 0#32 (regNum rb) (regNum ra) l opc := by
  have hcases : opc = 0#3 ∨ opc = 1#3 ∨ opc = 2#3 ∨ opc = 3#3 := by
    simp only [BitVec.toNat_eq, BitVec.toNat_ofNat]
    omega
  rcases hcases with rfl | rfl | rfl | rfl <;> rfl

/-- Settles O47: past the decoder's checks the instruction's word is packed from the word's own fields,
the checked ones 0. -/
theorem encodeDecode : Obligations.EncodeDecode := by
  intro w i h
  have hfit := fitsRow_of_decode h
  have hw := packWord_fields w hfit.rsv
  simp only [decode] at h
  split_ifs at h with h7 hrsv hrr himm hrb h4 h5 himm
  all_goals cases h
  · rw [encode_rrInstr hrr, regNum_regOfNum, regNum_regOfNum]
    rwa [not_not.mp himm] at hw
  · rw [encode, regNum_regOfNum]
    rwa [not_not.mp hrb, h4] at hw
  · rw [encode, regNum_regOfNum]
    rwa [not_not.mp himm, not_not.mp hrb, h5] at hw
  · have hopc : opcField w = 6#3 := BitVec.eq_of_toNat_eq hfit.opc
    rw [encode, regNum_regOfNum]
    rwa [not_not.mp hrb, hopc] at hw

/-- Settles O25: the word of `jnz` fits its row, and its immediate field is the label id. -/
theorem jnzEncoding : Obligations.JnzEncoding := fun l ra t =>
  ⟨encode_and_mask_eq_pattern (.jnz l ra t), immField_packWord t 0#3 (regNum ra) l 6#3⟩

/-- Settles O49: each word is a constant that the decoder evaluates. -/
theorem decodedWords : Obligations.DecodedWords := by
  unfold Obligations.DecodedWords
  decide

end Sys2Proof

namespace Sys2Proof.Machine

/-! ### Serialised words -/

/-- Bytes taken one after another from bit `a` on stand for the number those bits hold (R39). -/
theorem numOfBytes_extract {w : Nat} (x : BitVec w) (n a : Nat) :
    numOfBytes ((List.range n).map fun k => x.extractLsb' (a + 8 * k) 8) =
      x.toNat / 2 ^ a % 256 ^ n := by
  induction n generalizing a with
  | zero => simp [numOfBytes, Nat.mod_one]
  | succ n ih =>
    have hshift : (fun k => x.extractLsb' (a + 8 * k) 8) ∘ Nat.succ =
        fun k => x.extractLsb' (a + 8 + 8 * k) 8 := by
      funext k
      exact congrArg (fun i => x.extractLsb' i 8) (by omega)
    rw [List.range_succ_eq_map, List.map_cons, List.map_map, hshift, numOfBytes, ih, Nat.pow_add,
      ← Nat.div_div_eq_div_mul, Nat.pow_succ' (m := 256), Nat.mod_mul, BitVec.extractLsb'_toNat,
      Nat.shiftRight_eq_div_pow]
    rfl

theorem numOfBytes_bytesOfWord (w : IWord) : numOfBytes (bytesOfWord w) = w.toNat := by
  have h := numOfBytes_extract w 8 0
  simp only [Nat.zero_add, Nat.pow_zero, Nat.div_one] at h
  rw [bytesOfWord, h]
  exact Nat.mod_eq_of_lt w.isLt

theorem numOfBytes_bytesOfAddr (a : Addr) : numOfBytes (bytesOfAddr a) = a.toNat := by
  have h := numOfBytes_extract a 4 0
  simp only [Nat.zero_add, Nat.pow_zero, Nat.div_one] at h
  rw [bytesOfAddr, h]
  exact Nat.mod_eq_of_lt a.isLt

theorem wordsOfBytes_bytesOfWord_append (w : IWord) (bs : List Byte) :
    wordsOfBytes (bytesOfWord w ++ bs) = (wordsOfBytes bs).map (w :: ·) := by
  have hstep : wordsOfBytes (bytesOfWord w ++ bs) =
      (wordsOfBytes bs).map (BitVec.ofNat 64 (numOfBytes (bytesOfWord w)) :: ·) := rfl
  rw [hstep, numOfBytes_bytesOfWord, BitVec.ofNat_toNat, BitVec.setWidth_eq]

/-- Settles O50: the bytes of a word stand for its number, so each word is read back before the rest. -/
theorem serialisedWordsReadBack : Obligations.SerialisedWordsReadBack := by
  refine ⟨fun ws => ?_, fun w => rfl, fun a => ⟨numOfBytes_bytesOfAddr a, rfl⟩⟩
  induction ws with
  | nil => rfl
  | cons w ws ih => rw [List.flatMap_cons, wordsOfBytes_bytesOfWord_append, ih, Option.map_some]

end Sys2Proof.Machine
end

section
/-! What executing one instruction, and one step, leave behind (42_control_transfer.md R90 to R95,
60_exceptions.md R101): one inversion lemma each, and the frame facts that follow from it. -/

namespace Sys2Proof.Machine

/-! ### One instruction -/

/-- The states executing an instruction in `s` can answer, nested executions included: hops counted,
with at most one register written or one record sent, or with a fault taken (R92, R95, R101). -/
inductive ExecLeaves (s : State) : State → Prop where
  | hops (k : Nat) : ExecLeaves s (s.addHops k)
  | wrote (k : Nat) (ra : Reg) (v : Word) : ExecLeaves s ((s.addHops k).setReg ra v)
  | sent (k : Nat) (ra : Reg) : ExecLeaves s ((s.addHops k).emit ra (s.getReg ra))
  | faulted (k : Nat) (c : RunFault) (q : Addr) : ExecLeaves s ((s.addHops k).enterFault c q)

theorem exec_leaves {i : Instr} {s t : State} (h : exec i s = .next t) : ExecLeaves s t := by
  rcases exec_cases i s with ⟨u, he, hn⟩ | ⟨c, q, u, he, hn⟩
  · cases hn.symm.trans h
    obtain ⟨k, rfl | ⟨ra, v, rfl⟩ | ⟨ra, rfl⟩⟩ := execAt_done he
    · exact .hops k
    · exact .wrote k ra v
    · exact .sent k ra
  · cases hn.symm.trans h
    obtain ⟨k, rfl⟩ := execAt_raised he
    exact .faulted k c q

theorem exec_next (i : Instr) (s : State) : ∃ t, exec i s = .next t := by
  rcases exec_cases i s with ⟨t, -, h⟩ | ⟨c, q, t, -, h⟩
  · exact ⟨t, h⟩
  · exact ⟨_, h⟩

theorem SameImage.refl (s : State) : SameImage s s := ⟨rfl, rfl, rfl, rfl, rfl⟩

/-- Settles O37: none of the four ways an execution ends touches the pc or the image, and only a fault
entry touches the status, which then leaves registers and output alone. -/
theorem instructionFrame : Obligations.InstructionFrame := by
  intro i s
  obtain ⟨t, ht⟩ := exec_next i s
  refine ⟨t, ht, ?_⟩
  cases exec_leaves ht with
  | hops k => exact ⟨rfl, .refl s, .inl ⟨rfl, rfl, rfl, rfl⟩⟩
  | wrote k ra v => exact ⟨rfl, .refl s, .inl ⟨rfl, rfl, rfl, rfl⟩⟩
  | sent k ra => exact ⟨rfl, .refl s, .inl ⟨rfl, rfl, rfl, rfl⟩⟩
  | faulted k c q => exact ⟨rfl, .refl s, .inr ⟨rfl, Option.some_ne_none c, rfl, rfl, rfl⟩⟩

/-! ### One step -/

/-- `s` with `HOPS` 0 and the pc on the next address: what a completed execution has changed besides
its one effect (R33, R90). -/
def State.passed (s : State) : State := s.clearHops.advance

/-- The states a step from `s` can answer, each with the condition it is answered under (R90, R93). -/
inductive StepLeaves (s : State) : State → Prop where
  | waits (h : s.runState ≠ .run) : StepLeaves s s
  | ends (hrun : s.runState = .run) (hpc : s.progLen ≤ s.pc) : StepLeaves s s.endRun
  | illegal (hrun : s.runState = .run) (hpc : s.pc < s.progLen) (w : Illegal)
      (hw : s.instrAt s.pc = .illegal w) : StepLeaves s (s.enterFault .illegalInstruction s.pc)
  | skips (hrun : s.runState = .run) (hpc : s.pc < s.progLen) : StepLeaves s s.advance
  | passed (hrun : s.runState = .run) (hpc : s.pc < s.progLen) : StepLeaves s s.passed
  | wrote (hrun : s.runState = .run) (hpc : s.pc < s.progLen) (ra : Reg) (v : Word) :
      StepLeaves s (s.passed.setReg ra v)
  | sent (hrun : s.runState = .run) (hpc : s.pc < s.progLen) (ra : Reg) :
      StepLeaves s (s.passed.emit ra (s.getReg ra))
  | faulted (hrun : s.runState = .run) (hpc : s.pc < s.progLen) (c : RunFault) (q : Addr) :
      StepLeaves s (s.clearHops.enterFault c q)

theorem State.retire_of_run {t : State} (h : t.runState = .run) : t.retire = t.advance.clearHops :=
  if_pos h

theorem State.retire_of_stopped {t : State} (h : t.runState ≠ .run) : t.retire = t.clearHops :=
  if_neg h

theorem step_leaves {s t : State} (h : step s = .next t) : StepLeaves s t := by
  obtain ⟨hrun, rfl⟩ | ⟨hrun, hpc, rfl⟩ | ⟨hrun, hpc, ⟨w, hw⟩, rfl⟩ | ⟨hrun, hpc, -, rfl⟩ |
    ⟨hrun, hpc, i, u, -, -, he, rfl⟩ := step_cases h
  · exact .waits hrun
  · exact .ends hrun hpc
  · exact .illegal hrun hpc w hw
  · exact .skips hrun hpc
  · cases exec_leaves he with
    | hops k => rw [State.retire_of_run (by exact hrun)]; exact .passed hrun hpc
    | wrote k ra v => rw [State.retire_of_run (by exact hrun)]; exact .wrote hrun hpc ra v
    | sent k ra => rw [State.retire_of_run (by exact hrun)]; exact .sent hrun hpc ra
    | faulted k c q => rw [State.retire_of_stopped (by simp)]; exact .faulted hrun hpc c q

/-- Settles O34: below `PROG_LEN` a step either takes a fault, which leaves the pc, or advances it. -/
theorem stepAdvancesByOne : Obligations.StepAdvancesByOne := by
  intro s hrun hpc
  obtain ⟨t, ht⟩ := step_next s
  refine ⟨t, ht, ?_⟩
  cases step_leaves ht with
  | waits h => exact absurd hrun h
  | ends _ h => exact absurd hpc (BitVec.not_lt.mpr h)
  | illegal => exact .inr ⟨rfl, rfl⟩
  | skips => exact .inl ⟨hrun, rfl⟩
  | passed => exact .inl ⟨hrun, rfl⟩
  | wrote => exact .inl ⟨hrun, rfl⟩
  | sent => exact .inl ⟨hrun, rfl⟩
  | faulted => exact .inr ⟨rfl, rfl⟩

theorem State.clearHops_of_zero {s : State} (h : s.hops = 0) : s.clearHops = s := by
  rw [State.clearHops, ← h]

/-- Settles O35: only the two fault entries answer a state in FAULT from one in RUN, and the hops a
nested fault counted are cleared. -/
theorem faultsArePrecise : Obligations.FaultsArePrecise := by
  intro s t hrun hhops hstep hfault
  have hne : s.runState ≠ .fault := by rw [hrun]; decide
  cases step_leaves hstep with
  | waits h => exact absurd hrun h
  | ends => cases hfault
  | illegal => exact ⟨_, _, rfl⟩
  | skips => exact absurd hfault hne
  | passed => exact absurd hfault hne
  | wrote => exact absurd hfault hne
  | sent => exact absurd hfault hne
  | faulted _ _ c q => exact ⟨c, q, by rw [State.clearHops_of_zero hhops]; rfl⟩

/-- Settles O36: none of the updates a step makes touches the image. -/
theorem stepKeepsProgram : Obligations.StepKeepsProgram := by
  intro s t hstep
  cases step_leaves hstep <;> exact .refl s

/-- Settles O38: of the states a step can answer one differs in a register and one in the output; the
others keep both. -/
theorem oneEffectPerStep : Obligations.OneEffectPerStep := by
  intro s t hstep
  cases step_leaves hstep with
  | wrote _ _ ra v => exact .inl ⟨rfl, ra, fun r hr => s.passed.getReg_setReg_ne v hr⟩
  | sent _ _ ra => exact .inr ⟨rfl, ra, rfl⟩
  | _ => exact .inl ⟨rfl, .eax, fun _ _ => rfl⟩

/-! ### The step by what it finds at `pc` -/

theorem step_of_front_runs {s t : State} {i : Instr} (hfront : front s = .runs i)
    (hexec : exec i s.clearHops = .next t) : step s = .next t.retire := by
  simp only [step, hfront, hexec]

theorem State.retire_eq (t : State) :
    t.retire = { t with hops := 0, pc := if t.runState = .run then t.pc + 1#32 else t.pc } := by
  unfold State.retire
  split <;> rfl

/-- In RUN, below `PROG_LEN`, an unlabelled instruction is executed with `HOPS` 0 and retired (R90). -/
theorem step_of_instr {s : State} {i : Instr} (hrun : s.runState = .run) (hpc : s.pc < s.progLen)
    (hi : s.instrAt s.pc = .instr i) (hlab : labelled i = false) :
    ∃ u, exec i s.clearHops = .next u ∧ step s = .next u.retire := by
  have hfront : front s = .runs i := by rw [front_of_instr hrun hpc hi, hlab]; rfl
  obtain ⟨u, hu⟩ := exec_next i s.clearHops
  exact ⟨u, hu, step_of_front_runs hfront hu⟩

/-- Settles O29: the step executes the instruction and retires it. -/
theorem stepRunsDecoded : Obligations.StepRunsDecoded := by
  intro s i hrun hpc hi hlab
  obtain ⟨u, hu, hstep⟩ := step_of_instr hrun hpc hi hlab
  exact ⟨u, hu, by rw [hstep, State.retire_eq]⟩

/-- Settles O31: of the step's tests the one for a legal word fails. -/
theorem stepIllegal : Obligations.StepIllegal := by
  intro s w hrun hpc hw
  have hfront : front s = .illegal := by
    rw [front, if_pos hrun, if_neg (BitVec.not_le.mpr hpc), hw]
  simp only [step, hfront, State.enterFault]

theorem step_of_progLen_le {s : State} (hrun : s.runState = .run) (hpc : s.progLen ≤ s.pc) :
    step s = .next s.endRun := by
  have hfront : front s = .ends := by rw [front, if_pos hrun, if_pos hpc]
  simp only [step, hfront]

/-- Settles O32: with the pc at `PROG_LEN` the step ends the run. -/
theorem stepEndsRun : Obligations.StepEndsRun := fun _ hrun hpc =>
  step_of_progLen_le hrun (hpc ▸ BitVec.le_refl _)

/-- Settles O33: outside RUN the step waits. -/
theorem stoppedCoreStays : Obligations.StoppedCoreStays := by
  intro s hstop
  have hfront : front s = .waits := if_neg hstop
  simp only [step, hfront]

/-! ### A placed word -/

theorem fetchSlot_ne (pc : Addr) : fetchSlot pc ≠ 0xFFFFFFFF#32 := by
  unfold fetchSlot
  split_ifs with h
  · decide
  · exact h

theorem State.placeWord_pc_lt (s : State) (w : IWord) :
    (s.placeWord w).pc < (s.placeWord w).progLen := by
  have hne := fetchSlot_ne s.pc
  show fetchSlot s.pc < if s.progLen ≤ fetchSlot s.pc then fetchSlot s.pc + 1#32 else s.progLen
  split_ifs with h
  · bv_omega
  · exact BitVec.not_le.mp h

theorem State.wordAt_of_find {s : State} {a : Nat} {w : IWord} (h : s.prog.find a = some w) :
    s.wordAt a = w := by
  rw [State.wordAt, h, Option.getD_some]

theorem State.placeWord_instrAt (s : State) (w : IWord) :
    (s.placeWord w).instrAt (s.placeWord w).pc = decode w := by
  rw [State.instrAt, State.wordAt_of_find (s.prog.find_put_same (fetchSlot s.pc).toNat w)]

theorem State.withFetchWord_toNat (s : State) (w : IWord) :
    s.withFetchWord 64 w.toNat = s.placeWord w := by
  rw [State.withFetchWord, Nat.mod_eq_of_lt w.isLt, BitVec.ofNat_toNat, BitVec.setWidth_eq]

/-- Settles O39: the placed word is fetched below `PROG_LEN` and decodes to the instruction it is the
word of. -/
theorem placedWordRuns : Obligations.PlacedWordRuns := by
  intro s i hlab
  rw [State.withFetchWord_toNat]
  have hi : (s.placeWord (encode i)).instrAt (s.placeWord (encode i)).pc = .instr i :=
    (s.placeWord_instrAt _).trans (decodeEncode i)
  exact step_of_instr rfl (s.placeWord_pc_lt _) hi hlab

end Sys2Proof.Machine
end

section
/-! `jnz` and its chains (42_control_transfer.md R94 to R96): how one jump ends, and how the whole chain
of an outer jump ends where the chain, followed without a hop count, stands last. -/

namespace Sys2Proof.Machine

/-! ### One jump -/

variable {ra : Reg} {t : LabelId} {a d : Addr} {s : State}

theorem jnzHop_of_unbound (hr : s.getReg ra ≠ 0#32) (hl : s.labelLookup t = none) :
    jnzHop ra t a s = .raises .undefinedLabel a s := by
  simp [jnzHop, jumpTaken_iff, hr, hl]

theorem jnzHop_of_beyond (hr : s.getReg ra ≠ 0#32) (hl : s.labelLookup t = some d)
    (hd : s.progLen ≤ d) : jnzHop ra t a s = .raises .badTarget a s := by
  simp [jnzHop, jumpTaken_iff, hr, hl, hd]

theorem jnzHop_of_hops (hr : s.getReg ra ≠ 0#32) (hl : s.labelLookup t = some d)
    (hd : d < s.progLen) (hh : s.progLen.toNat ≤ s.hops) :
    jnzHop ra t a s = .raises .jumpCycle a s.countHop := by
  simp [jnzHop, jumpTaken_iff, hr, hl, BitVec.not_le.mpr hd, Nat.lt_succ_of_le hh]

theorem jnzHop_of_illegal {w : Illegal} (hr : s.getReg ra ≠ 0#32) (hl : s.labelLookup t = some d)
    (hd : d < s.progLen) (hh : s.hops < s.progLen.toNat) (hw : s.instrAt d = .illegal w) :
    jnzHop ra t a s = .raises .illegalInstruction d s.countHop := by
  simp [jnzHop, jumpTaken_iff, hr, hl, BitVec.not_le.mpr hd, Nat.not_lt.mpr (Nat.succ_le_of_lt hh), hw]

theorem execAt_jnz_of_notTaken (n : Nat) (l : Bool) (t : LabelId) (a : Addr)
    (hr : s.getReg ra = 0#32) : execAt n (.jnz l ra t) a s = .done s := by
  rw [execAt.eq_def]
  simp only [jnzHop_notTaken.mpr hr]

theorem execAt_jnz_of_raises {c : RunFault} {q : Addr} {s' : State} (n : Nat) (l : Bool)
    (h : jnzHop ra t a s = .raises c q s') : execAt n (.jnz l ra t) a s = .raised c q s' := by
  rw [execAt.eq_def]
  simp only [h]

theorem execAt_jnz_of_enters {j : Instr} {s' : State} (n : Nat) (l : Bool)
    (h : jnzHop ra t a s = .enters d j s') :
    execAt (n + 1) (.jnz l ra t) a s = execAt n j d s' := by
  rw [execAt]
  simp only [h]

/-- Settles O21: a jump that is not taken completes in the state it began in. -/
theorem jnzNotTaken : Obligations.JnzNotTaken := fun l _ t s hr =>
  congrArg settle (execAt_jnz_of_notTaken s.progLen.toNat l t s.pc hr)

/-! ### Targets that are no `jnz` -/

/-- Only a `div` raises among the instructions that are no `jnz`, and it writes nothing before. -/
theorem execAt_raised_of_ne_jnz {n : Nat} {j : Instr} (hj : ∀ l ra t, j ≠ .jnz l ra t) {u : State}
    {c : RunFault} {q : Addr} (h : execAt n j a s = .raised c q u) : c = .divideByZero := by
  rw [execAt.eq_def] at h
  cases j with
  | jnz l ra t => exact absurd rfl (hj l ra t)
  | div l ra rb =>
    simp only [divEffect] at h
    split_ifs at h
    cases h
    rfl
  | _ => cases h

/-- What a target with no fault of its own does is the same at every address, room and hop count. -/
theorem execAt_completes {j : Instr} (hj : ∀ l ra t, j ≠ .jnz l ra t)
    (hdiv : ∀ l ra rb, j = .div l ra rb → s.getReg ra ≠ 0#32 ∧ s.getReg rb ≠ 0#32) :
    ∃ u : State, u.hops = s.hops ∧ u.pc = s.pc ∧ u.runState = s.runState ∧
      ∀ n a k, execAt n j a (s.addHops k) = .done (u.addHops k) := by
  cases j with
  | jnz l ra t => exact absurd rfl (hj l ra t)
  | div l ra rb =>
    obtain ⟨ha, hb⟩ := hdiv l ra rb rfl
    have hok : ¬divFaults (s.getReg ra) (s.getReg rb) = true := fun h =>
      ((divFaults_iff _ _).mp h).elim ha hb
    refine ⟨s.writeRR aluDiv ra rb, rfl, rfl, rfl, fun n a k => ?_⟩
    rw [execAt.eq_def]
    exact if_neg hok
  | add l ra rb => exact ⟨s.writeRR aluAdd ra rb, rfl, rfl, rfl, fun n a k => by rw [execAt.eq_def]; rfl⟩
  | sub l ra rb => exact ⟨s.writeRR aluSub ra rb, rfl, rfl, rfl, fun n a k => by rw [execAt.eq_def]; rfl⟩
  | mul l ra rb => exact ⟨s.writeRR aluMul ra rb, rfl, rfl, rfl, fun n a k => by rw [execAt.eq_def]; rfl⟩
  | mov l ra imm => exact ⟨s.writeRI ra imm, rfl, rfl, rfl, fun n a k => by rw [execAt.eq_def]; rfl⟩
  | out l ra => exact ⟨s.sendR ra, rfl, rfl, rfl, fun n a k => by rw [execAt.eq_def]; rfl⟩

theorem execAt_div_of_zero (n : Nat) (l : Bool) {rb : Reg} (a : Addr)
    (h : s.getReg ra = 0#32 ∨ s.getReg rb = 0#32) :
    execAt n (.div l ra rb) a s = .raised .divideByZero a s := by
  rw [execAt.eq_def]
  exact if_pos ((divFaults_iff _ _).mpr h)

/-! ### How a chain ends -/

theorem State.addHops_of_zero (hs : s.hops = 0) (k : Nat) : s.addHops k = { s with hops := k } := by
  rw [State.addHops, hs, Nat.zero_add]

theorem chain_zero (s : State) (c : ChainAt) : s.chain c 0 = some c := rfl

variable {l : Bool} {k : Nat} {c : ChainAt}

/-- The outer jump is executed as the jump where its chain stands. -/
theorem exec_jnz_of_chain (l : Bool) (hs : s.hops = 0) (h : s.chain ⟨ra, t, s.pc⟩ k = some c)
    (hk : k ≤ s.progLen.toNat) :
    ∃ l', exec (.jnz l ra t) s =
      settle (execAt (s.progLen.toNat - k) (.jnz l' c.ra c.t) c.a (s.addHops k)) := by
  obtain ⟨l', he⟩ := execAt_chain hs (l := l) h hk
  exact ⟨l', congrArg settle he⟩

theorem exec_jnz_of_chain_notTaken (l : Bool) (hs : s.hops = 0)
    (h : s.chain ⟨ra, t, s.pc⟩ k = some c) (hr : s.getReg c.ra = 0#32) :
    exec (.jnz l ra t) s = .next (s.addHops k) := by
  obtain ⟨l', he⟩ := exec_jnz_of_chain l hs h (chain_length h (chainNext_of_zero hr))
  rw [he, execAt_jnz_of_notTaken _ _ _ _ (by exact hr), settle]

theorem exec_jnz_of_chain_raises {cause : RunFault} {q : Addr} {u : State} (l : Bool)
    (hs : s.hops = 0) (h : s.chain ⟨ra, t, s.pc⟩ k = some c) (hk : k ≤ s.progLen.toNat)
    (hhop : jnzHop c.ra c.t c.a (s.addHops k) = .raises cause q u) :
    exec (.jnz l ra t) s = .next (u.enterFault cause q) := by
  obtain ⟨l', he⟩ := exec_jnz_of_chain l hs h hk
  rw [he, execAt_jnz_of_raises _ _ hhop, settle]

/-- A chain that reaches a target that is no `jnz` executes it with one more hop counted. -/
theorem exec_jnz_of_chain_enters {j : Instr} (l : Bool) (hs : s.hops = 0)
    (h : s.chain ⟨ra, t, s.pc⟩ k = some c) (hr : s.getReg c.ra ≠ 0#32)
    (hl : s.labelLookup c.t = some d) (hd : d < s.progLen) (hi : s.instrAt d = .instr j)
    (hj : ∀ l ra t, j ≠ .jnz l ra t) :
    ∃ n, exec (.jnz l ra t) s = settle (execAt n j d (s.addHops (k + 1))) := by
  have hk : k < s.progLen.toNat :=
    chain_length_target h hl hd fun l ra t hjnz => hj l ra t (Decoded.instr.inj (hi.symm.trans hjnz))
  obtain ⟨l', he⟩ := exec_jnz_of_chain l hs h hk.le
  have hhop : jnzHop c.ra c.t c.a (s.addHops k) = .enters d j (s.addHops (k + 1)) :=
    jnzHop_enters.mpr ⟨hr, hl, hd, by simpa [hs] using hk, hi, rfl⟩
  obtain ⟨n, hn⟩ := Nat.exists_eq_add_of_lt hk
  have hroom : s.progLen.toNat - k = n + 1 := by omega
  exact ⟨n, by rw [he, hroom, execAt_jnz_of_enters _ _ hhop]⟩

/-- Such a target, with no fault of its own, has the effect it has as outer instruction. -/
theorem exec_jnz_of_chain_completes {j : Instr} (l : Bool) (hs : s.hops = 0)
    (h : s.chain ⟨ra, t, s.pc⟩ k = some c) (hr : s.getReg c.ra ≠ 0#32)
    (hl : s.labelLookup c.t = some d) (hd : d < s.progLen) (hi : s.instrAt d = .instr j)
    (hj : ∀ l ra t, j ≠ .jnz l ra t)
    (hdiv : ∀ l ra rb, j = .div l ra rb → s.getReg ra ≠ 0#32 ∧ s.getReg rb ≠ 0#32) :
    ∃ u, exec j s = .next u ∧ u.pc = s.pc ∧ u.runState = s.runState ∧
      exec (.jnz l ra t) s = .next { u with hops := k + 1 } := by
  obtain ⟨u, hhops, hpc, hrun, he⟩ := execAt_completes hj hdiv
  obtain ⟨n, hn⟩ := exec_jnz_of_chain_enters l hs h hr hl hd hi hj
  refine ⟨u, ?_, hpc, hrun, ?_⟩
  · rw [exec_eq_settle]
    exact congrArg settle (he _ s.pc 0)
  · rw [hn, he, settle, State.addHops_of_zero (hhops.trans hs)]

/-- Settles O27: the last jump of the chain is not taken, or enters a target that completes. -/
theorem finiteChainCompletes : Obligations.FiniteChainCompletes := by
  refine fun l ra t s k c hs h => ⟨fun hr => ?_, fun d j hr hl hd hi hj hdiv => ?_⟩
  · rw [exec_jnz_of_chain_notTaken l hs h hr, State.addHops_of_zero hs]
  · obtain ⟨u, hu, -, -, he⟩ := exec_jnz_of_chain_completes l hs h hr hl hd hi hj hdiv
    exact ⟨u, hu, he⟩

/-- Settles O28: the last jump of the chain raises by one of its own checks, or enters a `div` that
does. -/
theorem finiteChainFaults : Obligations.FiniteChainFaults := by
  refine fun l ra t s k c hs h hr => ⟨fun hl => ?_, fun d hl hd => ?_, fun d w hl hd hw => ?_,
    fun d l' ra' rb' hl hd hi hz => ?_⟩
  · have hk := chain_length h (chainNext_of_unbound hl)
    rw [exec_jnz_of_chain_raises l hs h hk (jnzHop_of_unbound hr hl), State.addHops_of_zero hs]
    rfl
  · have hk := chain_length h (chainNext_of_target hl fun hlt => absurd hlt (BitVec.not_lt.mpr hd))
    rw [exec_jnz_of_chain_raises l hs h hk (jnzHop_of_beyond hr hl hd), State.addHops_of_zero hs]
    rfl
  · have hk := chain_length_target h hl hd fun _ _ _ hjnz => by cases hw.symm.trans hjnz
    have hh : (s.addHops k).hops < (s.addHops k).progLen.toNat := by simpa [hs] using hk
    rw [exec_jnz_of_chain_raises l hs h hk.le (jnzHop_of_illegal hr hl hd hh hw),
      State.addHops_of_zero hs]
    rfl
  · obtain ⟨n, hn⟩ := exec_jnz_of_chain_enters l hs h hr hl hd hi fun _ _ _ => Instr.noConfusion
    rw [hn, execAt_div_of_zero n l' d (by exact hz), State.addHops_of_zero hs]
    rfl

/-- Settles O22: the chain of the jump stands at the jump itself, and its target completes. -/
theorem jnzTakenRunsTarget : Obligations.JnzTakenRunsTarget := by
  intro l ra t s d j hs hr hl hd hi hj hdiv
  obtain ⟨u, hu, hpc, hrun, he⟩ :=
    exec_jnz_of_chain_completes l hs (chain_zero s ⟨ra, t, s.pc⟩) hr hl hd hi hj hdiv
  exact ⟨u, _, hu, he, rfl, hpc, hrun⟩

/-- Settles O23: a chain of no jumps that ends in a faulting `div`. -/
theorem jnzNestedDivideByZero : Obligations.JnzNestedDivideByZero := by
  intro l l' ra ra' rb' t s d hs hr hl hd hi hz
  obtain ⟨-, -, -, hdiv⟩ := finiteChainFaults l ra t s 0 _ hs (chain_zero s ⟨ra, t, s.pc⟩) hr
  exact hdiv d l' ra' rb' hl hd hi hz

/-- Settles O24: a chain of no jumps that ends in a fault of the jump itself. -/
theorem jnzFaults : Obligations.JnzFaults := by
  intro l ra t s hs hr
  obtain ⟨hunbound, hbeyond, hillegal, -⟩ :=
    finiteChainFaults l ra t s 0 _ hs (chain_zero s ⟨ra, t, s.pc⟩) hr
  refine ⟨fun hl => ?_, fun d hl hd => ?_, hillegal⟩
  · rw [hunbound hl, ← hs]
  · rw [hbeyond d hl hd, ← hs]

/-! ### Endless chains -/

/-- A chain that has ended stood somewhere last. -/
theorem chain_last (h : s.chain c k = none) :
    ∃ j c', s.chain c j = some c' ∧ s.chainNext c' = none := by
  induction k with
  | zero => cases h
  | succ k ih =>
    rw [State.chain] at h
    cases hk : s.chain c k with
    | none => exact ih hk
    | some c' => rw [hk] at h; exact ⟨k, c', hk, h⟩

/-- A taken jump with which a chain ends enters no `jnz`. -/
theorem ne_jnz_of_chainNext_none (h : s.chainNext c = none) (hr : s.getReg c.ra ≠ 0#32)
    (hl : s.labelLookup c.t = some d) (hd : d < s.progLen) (l : Bool) (ra : Reg) (t : LabelId) :
    s.instrAt d ≠ .instr (.jnz l ra t) := by
  intro hi
  simp [State.chainNext, hr, hl, hd, hi] at h

theorem execAt_done_runState {n : Nat} {i : Instr} {u : State} (h : execAt n i a s = .done u) :
    u.runState = s.runState := by
  obtain ⟨k, rfl | ⟨ra, v, rfl⟩ | ⟨ra, rfl⟩⟩ := execAt_done h <;> rfl

/-- A chain that ends answers no JumpCycle: what its last jump raises is another fault, since it has
hops left, and the target it enters is no `jnz`. -/
theorem exec_jnz_ne_jumpCycle_of_chain_end (hs : s.hops = 0) (hrun : s.runState = .run)
    (h : s.chain ⟨ra, t, s.pc⟩ k = some c) (hend : s.chainNext c = none) {u : State}
    (hu : exec (.jnz l ra t) s = .next u) (hfault : u.runState = .fault) :
    u.cause ≠ some .jumpCycle := by
  have hk := chain_length h hend
  have hne : s.runState ≠ .fault := by rw [hrun]; decide
  cases hhop : jnzHop c.ra c.t c.a (s.addHops k) with
  | notTaken =>
    rw [jnzHop_notTaken, State.addHops_getReg] at hhop
    cases (exec_jnz_of_chain_notTaken l hs h hhop).symm.trans hu
    exact absurd hfault hne
  | raises cause q v =>
    cases (exec_jnz_of_chain_raises l hs h hk hhop).symm.trans hu
    rintro ⟨⟩
    obtain ⟨hr, ⟨⟨⟩, -⟩ | ⟨d, hl, ⟨⟨⟩, -⟩ | ⟨hd, ⟨-, -, -, hhops⟩ | ⟨⟨⟩, -⟩⟩⟩⟩ := jnzHop_raises hhop
    have hlt := chain_length_target h hl hd (ne_jnz_of_chainNext_none hend hr hl hd)
    rw [State.addHops_progLen, State.addHops_hops, hs] at hhops
    omega
  | enters d j v =>
    obtain ⟨hr, hl, hd, -, hi, -⟩ := jnzHop_enters.mp hhop
    have hj : ∀ l ra t, j ≠ .jnz l ra t := fun l ra t hjnz =>
      ne_jnz_of_chainNext_none hend hr hl hd l ra t (hjnz ▸ hi)
    obtain ⟨n, hn⟩ := exec_jnz_of_chain_enters l hs h hr hl hd hi hj
    cases he : execAt n j d (s.addHops (k + 1)) with
    | done w =>
      rw [he] at hn
      cases hn.symm.trans hu
      exact absurd ((execAt_done_runState he).symm.trans hfault) hne
    | raised cause q w =>
      rw [he] at hn
      cases hn.symm.trans hu
      cases execAt_raised_of_ne_jnz hj he
      exact fun h => by cases h

/-- An endless chain stands somewhere after `PROG_LEN` jumps, with no hop left for the next. -/
theorem exec_jnz_of_endless (l : Bool) (hs : s.hops = 0)
    (h : ∀ k, s.chain ⟨ra, t, s.pc⟩ k ≠ none) :
    ∃ c, s.chain ⟨ra, t, s.pc⟩ s.progLen.toNat = some c ∧
      exec (.jnz l ra t) s =
        .next ((s.addHops s.progLen.toNat).countHop.enterFault .jumpCycle c.a) := by
  obtain ⟨c', hc'⟩ := Option.ne_none_iff_exists'.mp (h (s.progLen.toNat + 1))
  obtain ⟨c, hc, hnext⟩ := chain_succ hc'
  obtain ⟨hr, hl, hd, -⟩ := chainNext_some hnext
  exact ⟨c, hc, exec_jnz_of_chain_raises l hs hc le_rfl
    (jnzHop_of_hops hr hl hd (by simp [hs]))⟩

/-- Settles O26: an endless chain runs out of hops after `PROG_LEN` jumps, and one that ends does not. -/
theorem jumpCycleExactlyEndlessChains : Obligations.JumpCycleExactlyEndlessChains := by
  refine fun l ra t s hrun hs => ⟨⟨fun ⟨u, hu, hcause, hfault⟩ k hk => ?_, fun h => ?_⟩, fun h => ?_⟩
  · obtain ⟨j, c, hc, hend⟩ := chain_last hk
    exact exec_jnz_ne_jumpCycle_of_chain_end hs hrun hc hend hu hfault hcause
  · obtain ⟨c, -, he⟩ := exec_jnz_of_endless l hs h
    exact ⟨_, he, rfl, rfl⟩
  · obtain ⟨c, hc, he⟩ := exec_jnz_of_endless l hs h
    refine ⟨c, hc, ?_⟩
    rw [he, State.addHops_of_zero hs]
    rfl

end Sys2Proof.Machine
end

section
/-! The host's interface (10_state.md R27 to R30, 60_exceptions.md R108): what each load and each access
to the register window answers. -/

namespace Sys2Proof.Machine

/-! ### Power-on -/

/-- Settles O2: after power-on no entry is loaded, so every read answers the free value. -/
theorem powerOnLeavesOpen : Obligations.PowerOnLeavesOpen :=
  ⟨fun _ _ _ => rfl, fun _ _ => ⟨rfl, rfl, rfl⟩⟩

/-! ### `STATUS` -/

/-- The fields `STATUS` is put together from, read back (R29). -/
theorem statusFields_extract (st : BitVec 2) (c : BitVec 4) :
    (0#24 ++ (c ++ (0#2 ++ st))).extractLsb' 0 2 = st ∧
      (0#24 ++ (c ++ (0#2 ++ st))).extractLsb' 4 4 = c ∧
      (0#24 ++ (c ++ (0#2 ++ st))).extractLsb' 2 2 = 0#2 ∧
      (0#24 ++ (c ++ (0#2 ++ st))).extractLsb' 8 24 = 0#24 := by
  revert st c
  decide

theorem State.status_fields (s : State) :
    s.status.extractLsb' 0 2 = stateCode s.runState ∧
      s.status.extractLsb' 4 4 = causeCode s.cause ∧
      s.status.extractLsb' 2 2 = 0#2 ∧ s.status.extractLsb' 8 24 = 0#24 :=
  statusFields_extract (stateCode s.runState) (causeCode s.cause)

/-- Settles O6: `STATUS` reads as the codes of `STATE` and `CAUSE`, the latter `none` outside FAULT. -/
theorem statusFields : Obligations.StatusFields := by
  intro s hs
  obtain ⟨hstate, hcause, hzero, hhigh⟩ := s.status_fields
  have hnone : s.runState ≠ .fault → s.cause = none := fun h => not_not.mp (mt hs.cause.mpr h)
  refine ⟨s.status, rfl, ?_, ?_, ?_, ?_, ?_, ?_, ?_, ?_, ?_, ?_, hzero, hhigh, fun _ => rfl⟩
  all_goals intro h
  case refine_5 => rw [hcause, hnone h, causeCode]
  all_goals simp only [hstate, hcause, h, stateCode, causeCode]

/-! ### The window -/

theorem hostReg_reg (r : Reg) : hostReg (0x20 + 4 * (regNum r).toNat) = some (.reg r) := by
  cases r <;> decide

theorem hostReg_reserved {off : Nat} (h : (0x14 ≤ off ∧ off ≤ 0x1C) ∨ 0x3C < off) :
    hostReg off = some .reserved := by
  by_cases hhigh : 0x3C < off
  · exact if_pos hhigh
  · exact (if_neg hhigh).trans (if_pos (h.resolve_right hhigh))

/-- Settles O7: each offset starts the register R27 names there. -/
theorem hostWindowReads : Obligations.HostWindowReads := by
  refine fun s => ⟨rfl, rfl, rfl, fun hstop r => ?_, fun off hoff => ⟨?_, fun v => ?_⟩⟩
  · simp only [hostMove, hostRead, hostReg_reg, if_neg hstop]
  · simp only [hostMove, hostRead, hostReg_reserved hoff]
  · simp only [hostMove, hostWrite, hostReg_reserved hoff]

theorem hostMove_write_progLen {s : State} (n : Word) (hstop : s.runState ≠ .run) :
    hostMove (.write 0x08 n) s = .done (s.writeLen n) none :=
  if_neg hstop

/-- Settles O8: the write of `PROG_LEN` is `writeLen` outside RUN and no move in RUN. -/
theorem setLength : Obligations.SetLength := by
  refine fun s n => ⟨fun hstop hn => ?_, fun hstop hn => ?_, fun hrun => if_pos hrun⟩
  · rw [hostMove_write_progLen n hstop, State.writeLen, if_pos hn]
  · rw [hostMove_write_progLen n hstop, State.writeLen, if_neg (Nat.not_le.mpr hn)]

/-! ### Loads -/

theorem hostMove_loadWord {s : State} {a : Nat} (w : IWord) (hstop : s.runState ≠ .run)
    (ha : a < s.params.progMax) : hostMove (.loadWord a w) s = .done (s.putWord a w) none :=
  (if_neg hstop).trans (if_pos ha)

theorem hostMove_loadLabel {s : State} {id : Nat} (e : LabelEntry) (hstop : s.runState ≠ .run)
    (hid : id < s.params.labelSlots) : hostMove (.loadLabel id e) s = .done (s.putLabel id e) none :=
  (if_neg hstop).trans (if_pos hid)

theorem State.wordAt_putWord_same (s : State) (a : Nat) (w : IWord) : (s.putWord a w).wordAt a = w :=
  State.wordAt_of_find (s.prog.find_put_same a w)

theorem State.wordAt_putWord_ne (s : State) {a b : Nat} (w : IWord) (h : b ≠ a) :
    (s.putWord a w).wordAt b = s.wordAt b := by
  rw [State.wordAt, State.putWord_prog, Memory.find_put_ne _ w h]
  rfl

/-- Settles O9: a load below `PROG_MAX` is `putWord`. -/
theorem loadedWordIsFetched : Obligations.LoadedWordIsFetched := fun s a w hstop ha =>
  ⟨s.putWord a w, hostMove_loadWord w hstop ha, s.wordAt_putWord_same a w,
    fun _ hb => s.wordAt_putWord_ne w hb, rfl⟩

/-- What a label table entry binds its id to (R25, R26). -/
def entryBinding (e : LabelEntry) : Option Addr := if e.v then some e.addr else none

theorem State.find_putLabel_same {s : State} (hwf : s.labels.wf) (id : Nat) (e : LabelEntry) :
    (s.putLabel id e).labels.find id = entryBinding e := by
  rw [State.putLabel_labels, entryBinding]
  split_ifs
  · exact Memory.find_put_same _ _ _
  · exact Memory.find_erase_same _ hwf _

theorem State.find_putLabel_ne (s : State) {id id' : Nat} (e : LabelEntry) (h : id' ≠ id) :
    (s.putLabel id e).labels.find id' = s.labels.find id' := by
  rw [State.putLabel_labels]
  split_ifs
  · exact Memory.find_put_ne _ _ h
  · exact Memory.find_erase_ne _ h

theorem State.labelLookup_eq_find {s : State} {t : LabelId} (h : t.toNat < s.params.labelSlots) :
    s.labelLookup t = s.labels.find t.toNat := if_pos h

theorem State.labelLookup_beyond {s : State} {t : LabelId} (h : s.params.labelSlots ≤ t.toNat) :
    s.labelLookup t = none := if_neg (Nat.not_lt.mpr h)

/-- Settles O10: a load below `LABEL_SLOTS` is `putLabel`, and a lookup there reads the table. -/
theorem loadedLabelIsLookedUp : Obligations.LoadedLabelIsLookedUp := by
  refine ⟨fun s id e hwf hstop hid => ?_, fun s id h => State.labelLookup_beyond h⟩
  refine ⟨s.putLabel id.toNat e, hostMove_loadLabel e hstop hid, ?_, fun id' hne => ?_, rfl⟩
  · rw [State.labelLookup_eq_find (by exact hid), State.find_putLabel_same hwf, entryBinding]
  · have hne' : id'.toNat ≠ id.toNat := fun h => hne (BitVec.eq_of_toNat_eq h)
    rw [State.labelLookup, State.find_putLabel_ne s e hne']
    rfl

/-- Settles O11: each load tests RUN first, then its table's size. -/
theorem noLoadDuringRun : Obligations.NoLoadDuringRun := fun _ _ _ _ =>
  ⟨fun hrun => ⟨if_pos hrun, if_pos hrun⟩,
    fun hstop ha => (if_neg hstop).trans (if_neg (Nat.not_lt.mpr ha)),
    fun hstop ha => (if_neg hstop).trans (if_neg (Nat.not_lt.mpr ha))⟩

end Sys2Proof.Machine
end

section
/-! The invariant of the core (10_state.md R19 to R30): power-on meets it, and every step, host move and
power-on reset keeps it. -/

namespace Sys2Proof.Machine

/-! ### Power-on -/

theorem params_wf_iff {p : Params} :
    p.wf = true ↔ 1 ≤ p.progMax ∧ p.progMax ≤ 2 ^ 32 - 1 ∧ p.labelSlots ≤ 2 ^ 32 := by
  simp [Params.wf, and_assoc]

theorem platform_wf : Config.platform.wf = true :=
  params_wf_iff.mpr ⟨Nat.le_add_left 1 _, Config.progMaxPred.isLt,
    Nat.le_of_lt_succ Config.labelSlots.isLt⟩

/-- Power-on meets the invariant, whatever the sink outside the core has received. -/
theorem State.resetFor_withOutput_inv {p : Params} (hp : p.wf = true) (n : Nat) (o : List Record) :
    State.Inv { State.resetFor p n with output := o } :=
  ⟨⟨hp, Nat.zero_le _, nofun, List.Pairwise.nil, nofun, List.Pairwise.nil, nofun⟩,
    ⟨⟨nofun, fun h => absurd rfl h⟩, fun _ => rfl, fun _ => rfl, nofun, rfl⟩⟩

theorem State.resetFor_inv {p : Params} (hp : p.wf = true) (n : Nat) : (State.resetFor p n).Inv :=
  State.resetFor_withOutput_inv hp n []

/-- Settles O3: the stores are empty and the status is idle; the platform's parameters are in R8's
ranges. -/
theorem resetMeetsInvariant : Obligations.ResetMeetsInvariant :=
  ⟨fun _ n hp => State.resetFor_inv hp n, State.resetFor_inv platform_wf 0⟩

/-! ### What keeps each half of the invariant -/

theorem State.InRange.of_sameImage {s t : State} (h : s.InRange) (him : SameImage s t)
    (hpc : t.runState = .run → t.pc ≤ t.progLen) : t.InRange := by
  obtain ⟨hprog, hlen, hlabels, hparams, -⟩ := him
  refine ⟨?_, ?_, hpc, ?_, ?_, ?_, ?_⟩
  · exact hparams ▸ h.params
  · exact hlen ▸ hparams ▸ h.progLen
  · exact hprog ▸ h.prog
  · exact hprog ▸ hparams ▸ h.progKeys
  · exact hlabels ▸ h.labels
  · exact hlabels ▸ hparams ▸ h.labelKeys

/-- A status that stays outside FAULT with its cause and fault addresses as they were is consistent. -/
theorem State.StatusOk.of_sameStatus {s t : State} (h : s.StatusOk) (hs : s.runState ≠ .fault)
    (ht : t.runState ≠ .fault) (hcause : t.cause = s.cause) (hpc : t.faultPc = s.faultPc)
    (haddr : t.faultAddr = s.faultAddr) (hhops : t.hops = 0) : t.StatusOk where
  cause := by rw [hcause, ← h.cause]; exact iff_of_false ht hs
  noFaultPc _ := hpc.trans (h.noFaultPc hs)
  noFaultAddr _ := haddr.trans (h.noFaultAddr hs)
  faultPc hf := absurd hf ht
  hops := hhops

theorem State.enterFault_statusOk {s : State} (hhops : s.hops = 0) (c : RunFault) (q : Addr) :
    (s.enterFault c q).StatusOk :=
  ⟨⟨fun _ => Option.some_ne_none c, fun _ => rfl⟩, fun h => absurd rfl h, fun h => absurd rfl h,
    fun _ => rfl, hhops⟩

/-! ### Steps -/

theorem addr_succ_le_of_lt {a b : Addr} (h : a < b) : a + 1#32 ≤ b := by bv_omega

/-- A core still in RUN after a step has its pc within the program. -/
theorem step_pc_le {s t : State} (h : s.InRange) (hstep : step s = .next t) (hrun : t.runState = .run) :
    t.pc ≤ t.progLen := by
  cases step_leaves hstep with
  | waits => exact h.pc hrun
  | ends => cases hrun
  | illegal => cases hrun
  | skips _ hpc => exact addr_succ_le_of_lt hpc
  | passed _ hpc => exact addr_succ_le_of_lt hpc
  | wrote _ hpc => exact addr_succ_le_of_lt hpc
  | sent _ hpc => exact addr_succ_le_of_lt hpc
  | faulted => cases hrun

theorem step_statusOk {s t : State} (h : s.StatusOk) (hstep : step s = .next t) : t.StatusOk := by
  have hne : s.runState = .run → s.runState ≠ .fault := fun hrun => by rw [hrun]; decide
  cases step_leaves hstep with
  | waits => exact h
  | ends hrun => exact h.of_sameStatus (hne hrun) nofun rfl rfl rfl h.hops
  | illegal => exact State.enterFault_statusOk h.hops _ _
  | skips hrun => exact h.of_sameStatus (hne hrun) (hne hrun) rfl rfl rfl h.hops
  | passed hrun => exact h.of_sameStatus (hne hrun) (hne hrun) rfl rfl rfl rfl
  | wrote hrun => exact h.of_sameStatus (hne hrun) (hne hrun) rfl rfl rfl rfl
  | sent hrun => exact h.of_sameStatus (hne hrun) (hne hrun) rfl rfl rfl rfl
  | faulted _ _ c q => exact State.enterFault_statusOk rfl c q

/-- Settles O40: a step keeps the image, moves the pc within the program and leaves the status
consistent. -/
theorem stepKeepsInvariant : Obligations.StepKeepsInvariant := fun _ _ ⟨hrange, hstatus⟩ hstep =>
  ⟨hrange.of_sameImage (stepKeepsProgram _ _ hstep) (step_pc_le hrange hstep),
    step_statusOk hstatus hstep⟩

/-! ### Moves of the host -/

/-- The states a move of the host leads to from `s`, each with the condition it is given under (R108). -/
inductive HostLeaves (s : State) : State → Prop where
  | same : HostLeaves s s
  | started : HostLeaves s s.startRun
  | setLen (hstop : s.runState ≠ .run) (n : Word) (hn : n.toNat ≤ s.params.progMax) :
      HostLeaves s { s with progLen := n }
  | putWord (hstop : s.runState ≠ .run) (a : Nat) (w : IWord) (ha : a < s.params.progMax) :
      HostLeaves s (s.putWord a w)
  | putLabel (hstop : s.runState ≠ .run) (id : Nat) (e : LabelEntry) (hid : id < s.params.labelSlots) :
      HostLeaves s (s.putLabel id e)

theorem hostWrite_leaves {s t : State} {off : Nat} {v : Word} {reply : Option Word}
    (h : hostWrite off v s = .done t reply) : HostLeaves s t := by
  rw [hostWrite] at h
  split at h
  · cases h
  · cases h
    rw [State.writeCtrl]
    split_ifs
    · exact .started
    · exact .same
  · split_ifs at h with hstop
    cases h
    rw [State.writeLen]
    split_ifs with hn
    · exact .setLen hstop v hn
    · exact .same
  all_goals
    cases h
    exact .same

theorem hostRead_same {s t : State} {off : Nat} {reply : Option Word}
    (h : hostRead off s = .done t reply) : t = s := by
  rw [hostRead] at h
  split at h
  case h_1 => cases h
  case h_7 =>
    split_ifs at h
    cases h
    rfl
  all_goals
    cases h
    rfl

theorem hostMove_leaves {s t : State} {m : HostMove} {reply : Option Word}
    (h : hostMove m s = .done t reply) : HostLeaves s t := by
  cases m with
  | loadWord a w =>
    simp only [hostMove, hostLoadWord] at h
    split_ifs at h with hstop ha
    cases h
    exact .putWord hstop a w ha
  | loadLabel id e =>
    simp only [hostMove, hostLoadLabel] at h
    split_ifs at h with hstop hid
    cases h
    exact .putLabel hstop id e hid
  | write off v => exact hostWrite_leaves h
  | read off => exact hostRead_same h ▸ .same

theorem State.putWord_inRange {s : State} (h : s.InRange) {a : Nat} (w : IWord)
    (ha : a < s.params.progMax) : (s.putWord a w).InRange where
  params := h.params
  progLen := h.progLen
  pc := h.pc
  prog := Memory.put_wf _ h.prog a w
  progKeys x hx := (Memory.mem_put hx).elim (fun heq => heq ▸ ha) (h.progKeys x)
  labels := h.labels
  labelKeys := h.labelKeys

theorem State.putLabel_wf {s : State} (h : s.labels.wf) (id : Nat) (e : LabelEntry) :
    (s.putLabel id e).labels.wf := by
  rw [State.putLabel_labels]
  split_ifs
  · exact Memory.put_wf _ h id e.addr
  · exact Memory.erase_wf _ h id

theorem State.putLabel_inRange {s : State} (h : s.InRange) {id : Nat} (e : LabelEntry)
    (hid : id < s.params.labelSlots) : (s.putLabel id e).InRange where
  params := h.params
  progLen := h.progLen
  pc := h.pc
  prog := h.prog
  progKeys := h.progKeys
  labels := State.putLabel_wf h.labels id e
  labelKeys x hx := by
    rw [State.putLabel_labels] at hx
    split_ifs at hx
    · exact (Memory.mem_put hx).elim (fun heq => heq ▸ hid) (h.labelKeys x)
    · exact h.labelKeys x (Memory.mem_erase hx)

theorem State.setLen_inRange {s : State} (h : s.InRange) (hstop : s.runState ≠ .run) {n : Word}
    (hn : n.toNat ≤ s.params.progMax) : State.InRange { s with progLen := n } :=
  ⟨h.params, hn, fun hrun => absurd hrun hstop, h.prog, h.progKeys, h.labels, h.labelKeys⟩

theorem State.startRun_inRange {s : State} (h : s.InRange) : s.startRun.InRange :=
  h.of_sameImage (.refl s) fun _ => by simp [BitVec.le_def]

theorem State.startRun_statusOk (s : State) : s.startRun.StatusOk :=
  ⟨⟨nofun, fun h => absurd rfl h⟩, fun _ => rfl, fun _ => rfl, nofun, rfl⟩

theorem HostLeaves.inRange {s t : State} (hmove : HostLeaves s t) (h : s.InRange) : t.InRange := by
  cases hmove with
  | same => exact h
  | started => exact State.startRun_inRange h
  | setLen hstop n hn => exact State.setLen_inRange h hstop hn
  | putWord _ a w ha => exact State.putWord_inRange h w ha
  | putLabel _ id e hid => exact State.putLabel_inRange h e hid

/-- Only the start of a run touches the status. -/
theorem HostLeaves.statusOk {s t : State} (hmove : HostLeaves s t) (h : s.StatusOk) : t.StatusOk := by
  obtain ⟨hcause, hnoPc, hnoAddr, hpc, hhops⟩ := h
  cases hmove with
  | started => exact State.startRun_statusOk s
  | _ => exact ⟨hcause, hnoPc, hnoAddr, hpc, hhops⟩

theorem HostLeaves.params_eq {s t : State} (hmove : HostLeaves s t) : t.params = s.params := by
  cases hmove <;> rfl

theorem State.powerOn_inv {s : State} (h : s.InRange) : s.powerOn.Inv :=
  State.resetFor_withOutput_inv h.params (s.powerOns + 1) s.output

theorem hostMove_inv {s t : State} {m : HostMove} {reply : Option Word} (h : s.Inv)
    (hmove : hostMove m s = .done t reply) : t.Inv := by
  obtain ⟨hrange, hstatus⟩ := h
  have hleaves := hostMove_leaves hmove
  exact ⟨hleaves.inRange hrange, hleaves.statusOk hstatus⟩

/-- Settles O41: each move keeps the ranges it is checked against, and a power-on starts afresh. -/
theorem hostKeepsInvariant : Obligations.HostKeepsInvariant :=
  ⟨fun _ _ _ _ h hmove => hostMove_inv h hmove, fun _ ⟨hrange, _⟩ => State.powerOn_inv hrange⟩

/-- Settles O42: by induction on how the state came about; every event keeps the invariant and the
parameters. -/
theorem reachableMeetsInvariant : Obligations.ReachableMeetsInvariant := by
  intro p s hp hreach
  induction hreach with
  | powerOn => exact ⟨State.resetFor_inv hp 0, rfl⟩
  | @event s t e _ hleads ih =>
    obtain ⟨hinv, hparams⟩ := ih
    cases e with
    | core =>
      obtain ⟨-, -, -, hkept, -⟩ := stepKeepsProgram s t hleads
      exact ⟨stepKeepsInvariant s t hinv hleads, hkept ▸ hparams⟩
    | host m =>
      obtain ⟨reply, hmove⟩ := hleads
      exact ⟨hostMove_inv hinv hmove, (hostMove_leaves hmove).params_eq.trans hparams⟩
    | powerOn =>
      obtain ⟨hrange, -⟩ := hinv
      cases hleads
      exact ⟨State.powerOn_inv hrange, hparams⟩

end Sys2Proof.Machine
end

section
/-! Runs (42_control_transfer.md R99, 60_exceptions.md R100, 70_reset_and_hazards.md R115): which faults an
assembled program can take, that every run ends, and that a run depends on the image alone. -/

namespace Sys2Proof.Machine

/-! ### What the image alone fixes -/

theorem SameImage.instrAt_eq {s t : State} (h : SameImage s t) (a : Addr) :
    t.instrAt a = s.instrAt a := by
  obtain ⟨hprog, -, -, -, hon⟩ := h
  simp only [State.instrAt, State.wordAt, hprog, hon]

theorem SameImage.labelLookup_eq {s t : State} (h : SameImage s t) (id : LabelId) :
    t.labelLookup id = s.labelLookup id := by
  obtain ⟨-, -, hlabels, hparams, -⟩ := h
  simp only [State.labelLookup, hlabels, hparams]

theorem SameImage.progLen_eq {s t : State} (h : SameImage s t) : t.progLen = s.progLen := by
  obtain ⟨-, hlen, -, -, -⟩ := h
  exact hlen.symm

theorem State.Assembled.of_sameImage {s t : State} (h : s.Assembled) (him : SameImage s t) :
    t.Assembled where
  legal a ha := by
    rw [him.progLen_eq] at ha
    rw [him.instrAt_eq]
    exact h.legal a ha
  bound id d hl := by
    rw [him.labelLookup_eq] at hl
    rw [him.progLen_eq]
    exact h.bound id d hl

/-! ### The faults of an assembled program -/

/-- The faults an assembled program can take: DivideByZero, UndefinedLabel and JumpCycle (R100). -/
def AssembledFault (c : RunFault) : Prop := c = .divideByZero ∨ c = .undefinedLabel ∨ c = .jumpCycle

theorem State.Assembled.jnzHop_fault {s u : State} (h : s.Assembled) {ra : Reg} {t : LabelId}
    {a q : Addr} {c : RunFault} (hhop : jnzHop ra t a s = .raises c q u) : AssembledFault c := by
  obtain ⟨-, ⟨hc, -⟩ | ⟨d, hl, ⟨-, -, -, hd⟩ | ⟨hd, ⟨hc, -⟩ | ⟨-, -, -, -, w, hw⟩⟩⟩⟩ :=
    jnzHop_raises hhop
  · exact .inr (.inl hc)
  · exact absurd (h.bound t d hl) (BitVec.not_lt.mpr hd)
  · exact .inr (.inr hc)
  · obtain ⟨i, hi⟩ := h.legal d hd
    cases hw.symm.trans hi

/-- Nested executions raise what the last jump, or the target it enters, raises. -/
theorem State.Assembled.execAt_fault {n : Nat} {i : Instr} {a q : Addr} {s u : State} {c : RunFault}
    (h : s.Assembled) (he : execAt n i a s = .raised c q u) : AssembledFault c := by
  fun_induction execAt n i a s
  case case4 => -- `div`
    rw [divEffect] at he
    split_ifs at he
    cases he
    exact .inl rfl
  case case8 hhop => -- a jump that raises
    cases he
    exact h.jnzHop_fault hhop
  case case9 => -- a jump for which there is no room
    cases he
    exact .inr (.inr rfl)
  case case10 hhop n ih => -- a jump that enters its target
    obtain ⟨-, -, -, -, -, rfl⟩ := jnzHop_enters.mp hhop
    exact ih (h.of_sameImage ⟨rfl, rfl, rfl, rfl, rfl⟩) he
  all_goals cases he

theorem State.Assembled.exec_fault {i : Instr} {s t : State} (h : s.Assembled)
    (hrun : s.runState ≠ .fault) (he : exec i s = .next t) (hfault : t.runState = .fault) :
    ∃ c, t.cause = some c ∧ AssembledFault c := by
  rcases exec_cases i s with ⟨u, hu, hn⟩ | ⟨c, q, u, hu, hn⟩
  · cases hn.symm.trans he
    exact absurd ((execAt_done_runState hu).symm.trans hfault) hrun
  · cases hn.symm.trans he
    exact ⟨c, rfl, h.execAt_fault hu⟩

/-- A step that answers FAULT executed the instruction that raised, since every word is legal. -/
theorem State.Assembled.step_fault {s t : State} (h : s.Assembled) (hrun : s.runState = .run)
    (hstep : step s = .next t) (hfault : t.runState = .fault) :
    ∃ c, t.cause = some c ∧ AssembledFault c := by
  have hne : s.runState ≠ .fault := by rw [hrun]; decide
  obtain ⟨-, rfl⟩ | ⟨-, -, rfl⟩ | ⟨-, hpc, ⟨w, hw⟩, -⟩ | ⟨-, -, -, rfl⟩ | ⟨-, -, i, u, -, -, he, rfl⟩ :=
    step_cases hstep
  · exact absurd hfault hne
  · cases hfault
  · obtain ⟨i, hi⟩ := h.legal s.pc hpc
    cases hw.symm.trans hi
  · exact absurd hfault hne
  · rw [State.retire_runState] at hfault
    rw [State.retire_cause]
    have hcleared : s.clearHops.Assembled := h.of_sameImage (.refl s)
    exact hcleared.exec_fault hne he hfault

/-- Settles O43: the step keeps the image, and what its instruction raises is a fault of an assembled
program. -/
theorem assembledProgramFaults : Obligations.AssembledProgramFaults := by
  intro s hrun h
  obtain ⟨t, ht⟩ := step_next s
  refine ⟨t, ht, h.of_sameImage (stepKeepsProgram s t ht), fun hfault => ?_⟩
  obtain ⟨c, hc, hclass⟩ := h.step_fault hrun ht hfault
  rw [hc]
  exact hclass.imp (congrArg some) (Or.imp (congrArg some) (congrArg some))

/-! ### Every run ends -/

/-- By induction on the instructions from `pc` on: a step that does not end the run leaves one less. -/
theorem run_ends {n : Nat} {s : State} (hrun : s.runState = .run) (hpc : s.pc ≤ s.progLen)
    (hn : s.progLen.toNat - s.pc.toNat = n) :
    ∃ k t, k ≤ n + 1 ∧ Host.Core.run core k s = .next t ∧
      ((t.runState = .done ∧ t.pc = s.progLen) ∨ t.runState = .fault) := by
  induction n generalizing s with
  | zero =>
    have hend : s.pc = s.progLen := by bv_omega
    refine ⟨1, s.endRun, le_rfl, ?_, .inl ⟨rfl, hend⟩⟩
    rw [run_succ (stepEndsRun s hrun hend), run_zero]
    rfl
  | succ n ih =>
    have hlt : s.pc < s.progLen := by bv_omega
    obtain ⟨t, ht, ⟨hrun', hpc'⟩ | ⟨hfault, -⟩⟩ := stepAdvancesByOne s hrun hlt
    · have hlen := (stepKeepsProgram s t ht).progLen_eq
      have hle : t.pc ≤ t.progLen := by rw [hpc', hlen]; exact addr_succ_le_of_lt hlt
      obtain ⟨k, u, hk, hu, hend⟩ := ih hrun' hle (by rw [hpc', hlen]; bv_omega)
      exact ⟨k + 1, u, Nat.succ_le_succ hk, (run_succ ht k).trans hu, hlen ▸ hend⟩
    · exact ⟨1, t, by omega, (run_succ ht 0).trans (run_zero t), .inr hfault⟩

/-- Settles O44: the invariant keeps the pc of a running core within the program. -/
theorem everyRunEnds : Obligations.EveryRunEnds := fun _ ⟨hrange, _⟩ hrun =>
  run_ends hrun (hrange.pc hrun) rfl

/-! ### Runs of one image -/

/-- `s` with the records `o` sent before its own: nothing in the core reads what the sink has. -/
def State.afterRecords (o : List Record) (s : State) : State := { s with output := o ++ s.output }

/-- A jump's decision with the state it leaves changed by `f`. -/
def Hop.mapState (f : State → State) : Hop → Hop
  | .notTaken => .notTaken
  | .raises c q s => .raises c q (f s)
  | .enters d j s => .enters d j (f s)

/-- An effect with the state it leaves changed by `f`. -/
def Effect.mapState (f : State → State) : Effect → Effect
  | .done s => .done (f s)
  | .raised c q s => .raised c q (f s)

theorem jnzHop_afterRecords (o : List Record) (ra : Reg) (t : LabelId) (a : Addr) (s : State) :
    jnzHop ra t a (s.afterRecords o) = (jnzHop ra t a s).mapState (State.afterRecords o) := by
  cases hhop : jnzHop ra t a s with
  | notTaken =>
    have hr : s.getReg ra = 0#32 := jnzHop_notTaken.mp hhop
    exact jnzHop_notTaken.mpr hr
  | enters d j u =>
    obtain ⟨hr, hl, hd, hh, hi, rfl⟩ := jnzHop_enters.mp hhop
    exact jnzHop_enters.mpr ⟨hr, hl, hd, hh, hi, rfl⟩
  | raises c q u =>
    obtain ⟨hr, ⟨rfl, rfl, rfl, hl⟩ | ⟨d, hl, ⟨rfl, rfl, rfl, hd⟩ | ⟨hd, ⟨rfl, rfl, rfl, hh⟩ |
      ⟨rfl, rfl, rfl, hh, w, hw⟩⟩⟩⟩ := jnzHop_raises hhop
    · exact jnzHop_of_unbound hr hl
    · exact jnzHop_of_beyond hr hl hd
    · exact jnzHop_of_hops hr hl hd hh
    · exact jnzHop_of_illegal hr hl hd hh hw

theorem State.emit_afterRecords (o : List Record) (s : State) (r : Reg) (v : Word) :
    (s.afterRecords o).emit r v = (s.emit r v).afterRecords o := by
  simp only [State.emit, State.afterRecords, List.append_assoc]

theorem divEffect_afterRecords (o : List Record) (ra rb : Reg) (a : Addr) (s : State) :
    divEffect ra rb a (s.afterRecords o) = (divEffect ra rb a s).mapState (State.afterRecords o) := by
  rw [divEffect, divEffect, apply_ite (Effect.mapState (State.afterRecords o))]
  rfl

theorem execAt_afterRecords (o : List Record) (n : Nat) (i : Instr) (a : Addr) (s : State) :
    execAt n i a (s.afterRecords o) = (execAt n i a s).mapState (State.afterRecords o) := by
  fun_induction execAt n i a s
  case case4 => -- `div`
    rw [execAt.eq_def]
    exact divEffect_afterRecords o _ _ _ _
  case case6 => -- `out`
    rw [execAt.eq_def]
    exact congrArg Effect.done (State.emit_afterRecords o _ _ _)
  case case7 hhop => -- a jump that is not taken
    exact execAt_jnz_of_notTaken _ _ _ _ (jnzHop_notTaken.mp hhop :)
  case case8 hhop => -- a jump that raises
    exact execAt_jnz_of_raises _ _ (by rw [jnzHop_afterRecords, hhop]; rfl)
  case case9 hhop => -- a jump for which there is no room
    rw [execAt, jnzHop_afterRecords, hhop]
    rfl
  case case10 hhop n ih => -- a jump that enters its target
    rw [execAt, jnzHop_afterRecords, hhop]
    exact ih
  all_goals
    rw [execAt.eq_def]
    rfl

theorem exec_afterRecords (o : List Record) {i : Instr} {s t : State} (h : exec i s = .next t) :
    exec i (s.afterRecords o) = .next (t.afterRecords o) := by
  have he := execAt_afterRecords o s.progLen.toNat i s.pc s
  rw [exec_eq_settle] at h ⊢
  refine (congrArg settle he).trans ?_
  cases hu : execAt s.progLen.toNat i s.pc s with
  | done u => rw [hu] at h; cases h; rfl
  | raised c q u => rw [hu] at h; cases h; rfl

theorem State.retire_afterRecords (o : List Record) (s : State) :
    (s.afterRecords o).retire = s.retire.afterRecords o := by
  rw [State.retire_eq, State.retire_eq]
  rfl

theorem step_afterRecords (o : List Record) {s t : State} (h : step s = .next t) :
    step (s.afterRecords o) = .next (t.afterRecords o) := by
  have hfront : front (s.afterRecords o) = front s := rfl
  rw [step] at h ⊢
  rw [hfront]
  cases hf : front s with
  | runs i =>
    rw [hf] at h
    obtain ⟨u, hu⟩ := exec_next i s.clearHops
    simp only [hu] at h
    cases h
    have he : exec i (s.afterRecords o).clearHops = _ := exec_afterRecords o hu
    simp only [he, State.retire_afterRecords]
  | _ => rw [hf] at h; cases h; rfl

theorem run_afterRecords (o : List Record) (k : Nat) {s t : State}
    (h : Host.Core.run core k s = .next t) :
    Host.Core.run core k (s.afterRecords o) = .next (t.afterRecords o) := by
  induction k generalizing s with
  | zero => cases h; rfl
  | succ k ih =>
    obtain ⟨u, hu⟩ := step_next s
    rw [run_succ hu] at h
    rw [run_succ (step_afterRecords o hu)]
    exact ih h

theorem run_next (k : Nat) (s : State) : ∃ t, Host.Core.run core k s = .next t := by
  induction k generalizing s with
  | zero => exact ⟨s, rfl⟩
  | succ k ih =>
    obtain ⟨u, hu⟩ := step_next s
    rw [run_succ hu]
    exact ih u

/-- The core of an image at the start of a run, with nothing sent: what two started cores share. -/
def State.fresh (s : State) : State := { s.startRun with output := [] }

theorem State.startRun_eq_fresh (s : State) : s.startRun = s.fresh.afterRecords s.output := by
  simp only [State.afterRecords, State.fresh, List.append_nil]
  rfl

theorem SameImage.fresh_eq {s t : State} (h : SameImage s t) : s.fresh = t.fresh := by
  obtain ⟨hprog, hlen, hlabels, hparams, hon⟩ := h
  simp only [State.fresh, State.startRun, State.clearRegs, hprog, hlen, hlabels, hparams, hon]

/-- Settles O45: both runs are the run of one fresh core, after what each sink had. -/
theorem runsDependOnImageOnly : Obligations.RunsDependOnImageOnly := by
  intro s s' him k
  obtain ⟨t, ht⟩ := run_next k s.fresh
  refine ⟨t.afterRecords s.output, t.afterRecords s'.output, t.output, ?_, ?_,
    rfl, rfl, rfl, rfl, rfl, rfl, rfl, rfl⟩
  · rw [State.startRun_eq_fresh]
    exact run_afterRecords s.output k ht
  · rw [State.startRun_eq_fresh, ← him.fresh_eq]
    exact run_afterRecords s'.output k ht

end Sys2Proof.Machine
end

section
/-! The ALU's results as numbers (40_alu.md R80, R84, 00_scope.md R11): wrap-around, and the quotient
rounded toward zero. -/

namespace Sys2Proof.Machine

theorem wrap32_toNat (n : Int) : ((wrap32 n).toNat : Int) = n % 2 ^ 32 := by
  rw [wrap32, BitVec.toNat_ofInt, Int.toNat_of_nonneg (Int.emod_nonneg n (by decide))]
  rfl

/-- Settles O18: each result is the exact one wrapped. -/
theorem resultsWrap : Obligations.ResultsWrap := fun a b =>
  ⟨wrap32_toNat (a.toInt + b.toInt), wrap32_toNat (a.toInt - b.toInt), wrap32_toNat (a.toInt * b.toInt)⟩

/-- The quotient of two words is a word's value again but for -2^31 / -1. -/
theorem inRange_intTdiv {a b : Word} (h : ¬(a = 0x80000000#32 ∧ b = 0xFFFFFFFF#32)) :
    inRange (Int.tdiv a.toInt b.toInt) = true := by
  rw [← BitVec.toInt_sdiv_of_ne_or_ne a b (not_and_or.mp h)]
  exact inRange_iff.mpr ⟨BitVec.le_toInt _, Int.le_of_lt_add_one BitVec.toInt_lt⟩

/-- The signed value of the quotient is exact (R11, R84). -/
theorem aluDiv_toInt {a b : Word} (h : ¬(a = 0x80000000#32 ∧ b = 0xFFFFFFFF#32)) :
    (aluDiv a b).toInt = Int.tdiv a.toInt b.toInt := by
  rw [aluDiv, tdiv_eq_intTdiv]
  exact toInt_ofInt_of_inRange (inRange_intTdiv h)

/-- Settles O17: the remainder is that of the truncating division. -/
theorem quotientTowardZero : Obligations.QuotientTowardZero := by
  refine ⟨fun a b hb hne => ⟨Int.tmod a.toInt b.toInt, ?_, ?_, ?_, ?_⟩, by decide⟩
  · rw [aluDiv_toInt hne]
    exact (Int.tdiv_mul_add_tmod a.toInt b.toInt).symm
  · have hpos : 0 < b.toInt.natAbs := Int.natAbs_pos.mpr fun h => hb (BitVec.toInt_inj.mp h)
    rw [Int.natAbs_tmod]
    exact Nat.mod_lt _ hpos
  · exact Int.tmod_nonneg _
  · intro ha
    have h := Int.tmod_nonneg b.toInt (Int.neg_nonneg.mpr ha)
    rw [Int.neg_tmod] at h
    exact Int.neg_nonneg.mp h

end Sys2Proof.Machine
end

section
/-! The assembler (30_encoding.md R58 to R74, 10_state.md R24): the label table of names, the lines of a
text one after another, what a translated program's labels and operands are, and its image. -/

namespace Sys2Proof.Machine

/-! ### The label table of names -/

theorem getAddress_append (t u : LabelTable) (name : Text) :
    LabelTable.getAddress (t ++ u) name = (t.getAddress name).or (u.getAddress name) := by
  induction t with
  | nil => rfl
  | cons x t ih =>
    obtain ⟨n, a⟩ := x
    rw [List.cons_append, LabelTable.getAddress, LabelTable.getAddress]
    split_ifs
    · rfl
    · exact ih

theorem getAddress_singleton (n name : Text) (a : Nat) :
    LabelTable.getAddress [(n, a)] name = if n = name then some a else none := rfl

theorem addLabel_of_bound {t : LabelTable} {name : Text} (h : t.getAddress name ≠ none) (a : Nat) :
    t.addLabel name a = none := by
  obtain ⟨b, hb⟩ := Option.ne_none_iff_exists'.mp h
  simp only [LabelTable.addLabel, hb]

theorem addLabel_of_unbound {t : LabelTable} {name : Text} (h : t.getAddress name = none) (a : Nat) :
    t.addLabel name a = some (t ++ [(name, a)]) := by
  simp only [LabelTable.addLabel, h]

/-- Settles O52: a new binding stands last, where it is found unless an earlier one is. -/
theorem labelTableOperations : Obligations.LabelTableOperations := by
  refine fun t name a => ⟨fun h => addLabel_of_bound h a, fun h => ?_, rfl⟩
  refine ⟨_, addLabel_of_unbound h a, ?_, fun other hne => ?_⟩
  · rw [getAddress_append, h, getAddress_singleton, if_pos rfl]
    rfl
  · rw [getAddress_append, getAddress_singleton, if_neg hne.symm, Option.or_none]

/-! ### Appending a line's instruction -/

theorem append_eq_none_iff {t : Translation} {p : LineParts} :
    t.append p = none ↔ ∃ name a, p.label = some name ∧ t.labels.getAddress name = some a := by
  obtain ⟨_ | name, op⟩ := p
  · simp [Translation.append]
  · cases hb : t.labels.getAddress name with
    | none => simp [Translation.append, addLabel_of_unbound hb, hb]
    | some a => simp [Translation.append, addLabel_of_bound (hb ▸ Option.some_ne_none a), hb]

/-- An instruction that is appended stands last, and its label, unbound before, is bound to it (R68). -/
theorem append_eq_some {t t' : Translation} {p : LineParts} (h : t.append p = some t') :
    t'.program = t.program ++ [⟨p.label, p.op⟩] ∧
      ∀ name a, t'.labels.getAddress name = some a ↔
        t.labels.getAddress name = some a ∨ p.label = some name ∧ t.program.length = a := by
  obtain ⟨_ | label, op⟩ := p
  · cases h
    simp
  · cases hb : t.labels.getAddress label with
    | some b => simp [Translation.append, addLabel_of_bound (hb ▸ Option.some_ne_none b)] at h
    | none =>
      simp only [Translation.append, addLabel_of_unbound hb, Option.some.injEq] at h
      subst h
      refine ⟨rfl, fun name a => ?_⟩
      rw [getAddress_append, getAddress_singleton]
      by_cases hname : label = name
      · subst hname
        simp [hb]
      · simp [hname]

/-! ### The lines of a text -/

theorem translateLines_of_blank {ln : Text} (h : tokens ln = []) (n : Nat) (lns : List Text)
    (t : Translation) : translateLines n (ln :: lns) t = translateLines (n + 1) lns t :=
  if_pos h

theorem translateLines_of_parts {ln : Text} {p : LineParts} {t t' : Translation}
    (hne : tokens ln ≠ []) (hread : readLine (tokens ln) = .parts p) (happ : t.append p = some t')
    (n : Nat) (lns : List Text) :
    translateLines n (ln :: lns) t = translateLines (n + 1) lns t' := by
  rw [translateLines, if_neg hne]
  simp only [hread, happ]

theorem readLine_nil : readLine [] = .error .malformedLine := rfl

theorem translateLines_of_duplicate {ln : Text} {p : LineParts} {t : Translation}
    (hread : readLine (tokens ln) = .parts p) (happ : t.append p = none) (n : Nat) (lns : List Text) :
    translateLines n (ln :: lns) t = .error .duplicateLabel n := by
  have hne : tokens ln ≠ [] := fun h => by rw [h, readLine_nil] at hread; cases hread
  rw [translateLines, if_neg hne]
  simp only [hread, happ]

/-- What the first line of a text that translates did (R62, R68, R69). -/
theorem translateLines_cons_ok {n : Nat} {ln : Text} {lns : List Text} {t u : Translation}
    (h : translateLines n (ln :: lns) t = .ok u) :
    (tokens ln = [] ∧ translateLines (n + 1) lns t = .ok u) ∨
      ∃ p t', tokens ln ≠ [] ∧ readLine (tokens ln) = .parts p ∧ t.append p = some t' ∧
        translateLines (n + 1) lns t' = .ok u := by
  by_cases hne : tokens ln = []
  · exact .inl ⟨hne, translateLines_of_blank hne n lns t ▸ h⟩
  · cases hread : readLine (tokens ln) with
    | error e => rw [translateLines_of_error hne hread] at h; cases h
    | parts p =>
      cases happ : t.append p with
      | none => rw [translateLines_of_duplicate hread happ] at h; cases h
      | some t' =>
        exact .inr ⟨p, t', hne, rfl, happ, translateLines_of_parts hne hread happ n lns ▸ h⟩

/-- A text whose first lines translate goes on from what they gave. -/
theorem translateLines_append {n : Nat} {before : List Text} {start t : Translation}
    (h : translateLines n before start = .ok t) (after : List Text) :
    translateLines n (before ++ after) start = translateLines (n + before.length) after t := by
  induction before generalizing n start with
  | nil => cases h; rfl
  | cons ln lns ih =>
    have hlen : n + (ln :: lns).length = n + 1 + lns.length := by rw [List.length_cons]; omega
    rw [List.cons_append, hlen]
    obtain ⟨hblank, hrest⟩ | ⟨p, t', hne, hread, happ, hrest⟩ := translateLines_cons_ok h
    · rw [translateLines_of_blank hblank, ih hrest]
    · rw [translateLines_of_parts hne hread happ, ih hrest]

/-- Settles O55: after lines that translate, the failing line is the first one. -/
theorem firstFailingLineStops : Obligations.FirstFailingLineStops := by
  refine fun before ln after t e n start h => ⟨fun hne hread => ?_, fun p hread happ => ?_,
    fun p => append_eq_none_iff⟩
  · rw [translateLines_append h, translateLines_of_error hne hread]
  · rw [translateLines_append h, translateLines_of_duplicate hread happ]

/-- What an empty program has, and appending a line that passes its checks keeps, every translated
program has. -/
theorem translate_invariant {P : Translation → Prop} (hempty : P ⟨[], LabelTable.reset⟩)
    (hkeep : ∀ ln p t t', readLine (tokens ln) = .parts p → t.append p = some t' → P t → P t')
    {text : Text} {t : Translation} (h : translate text = .ok t) : P t := by
  have hlines : ∀ (lns : List Text) (n : Nat) (start : Translation), P start →
      translateLines n lns start = .ok t → P t := by
    intro lns
    induction lns with
    | nil => intro n start hP hok; cases hok; exact hP
    | cons ln lns ih =>
      intro n start hP hok
      obtain ⟨-, hrest⟩ | ⟨p, t', -, hread, happ, hrest⟩ := translateLines_cons_ok hok
      · exact ih _ _ hP hrest
      · exact ih _ _ (hkeep ln p start t' hread happ hP) hrest
  exact hlines _ _ _ hempty h

/-! ### Labels of a translated program -/

/-- The label table binds exactly the labels that instructions carry, each to its instruction (R68). -/
def Translation.LabelsBound (t : Translation) : Prop :=
  ∀ name a, t.labels.getAddress name = some a ↔ ∃ i, t.program[a]? = some i ∧ i.label = some name

theorem getElem?_concat_eq_some {α : Type} {l : List α} {x y : α} {a : Nat} :
    (l ++ [x])[a]? = some y ↔ l[a]? = some y ∨ l.length = a ∧ x = y := by
  rcases Nat.lt_trichotomy a l.length with h | rfl | h
  · simp [List.getElem?_append_left h, h.ne']
  · simp
  · have hlen : (l ++ [x]).length ≤ a := by simpa using Nat.succ_le_of_lt h
    simp [List.getElem?_eq_none hlen, List.getElem?_eq_none h.le, h.ne]

theorem append_labelsBound {t t' : Translation} {p : LineParts} (h : t.LabelsBound)
    (happ : t.append p = some t') : t'.LabelsBound := by
  obtain ⟨hprog, hlabels⟩ := append_eq_some happ
  intro name a
  rw [hlabels, h name a, hprog]
  simp only [getElem?_concat_eq_some, or_and_right, exists_or]
  refine or_congr_right ⟨fun ⟨hlab, hlen⟩ => ⟨_, ⟨hlen, rfl⟩, hlab⟩, ?_⟩
  rintro ⟨_, ⟨hlen, rfl⟩, hlab⟩
  exact ⟨hlab, hlen⟩

theorem translate_labelsBound {text : Text} {t : Translation} (h : translate text = .ok t) :
    t.LabelsBound :=
  translate_invariant (fun name a => by simp [LabelTable.reset, LabelTable.getAddress])
    (fun _ _ _ _ _ happ hP => append_labelsBound hP happ) h

/-- Settles O53: both directions of `LabelsBound`. -/
theorem translatedLabelsBound : Obligations.TranslatedLabelsBound := fun _ _ h =>
  ⟨fun name a => (translate_labelsBound h name a).mp,
    fun a i name hi hlab => (translate_labelsBound h name a).mpr ⟨i, hi, hlab⟩⟩

/-! ### Operands of a translated program -/

theorem isName_of_mem_tokensFrom {cur rest tok : Text} (hcur : ∀ c ∈ cur, isSpace c = false)
    (h : tok ∈ tokensFrom cur rest) : isName tok = true := by
  fun_induction tokensFrom cur rest with
  | case1 => cases h
  | case2 cur hne =>
    cases List.mem_singleton.mp h
    exact isName_iff.mpr ⟨hne, hcur⟩
  | case3 c cs _ ih => exact ih (List.forall_mem_nil _) h
  | case4 cur c cs _ hne ih =>
    rcases List.mem_cons.mp h with rfl | h
    · exact isName_iff.mpr ⟨hne, hcur⟩
    · exact ih (List.forall_mem_nil _) h
  | case5 cur c cs hc ih =>
    refine ih (fun x hx => ?_) h
    rcases List.mem_append.mp hx with hx | hx
    · exact hcur x hx
    · exact List.mem_singleton.mp hx ▸ Bool.eq_false_iff.mpr hc

theorem isName_of_mem_tokens {ln tok : Text} (h : tok ∈ tokens ln) : isName tok = true :=
  isName_of_mem_tokensFrom (List.forall_mem_nil _) h

theorem readRR_op {mk : Reg → Reg → TextOp} {x y : Text} {o : TextOp} (h : readRR mk x y = .op o) :
    ∃ ra rb, o = mk ra rb := by
  unfold readRR at h
  split at h
  · cases h
  · split at h
    · cases h
    · cases h
      exact ⟨_, _, rfl⟩

theorem readRI_op {mk : Reg → Int → TextOp} {x y : Text} {o : TextOp} (h : readRI mk x y = .op o) :
    ∃ ra n, readLiteral y = some n ∧ o = mk ra n := by
  unfold readRI at h
  split at h
  · cases h
  · split at h
    · cases h
    · rename_i hy
      cases h
      exact ⟨_, _, hy, rfl⟩

theorem readR_op {mk : Reg → TextOp} {x : Text} {o : TextOp} (h : readR mk x = .op o) :
    ∃ ra, o = mk ra := by
  unfold readR at h
  split at h
  · cases h
  · cases h
    exact ⟨_, rfl⟩

theorem readRL_op {mk : Reg → Text → TextOp} {x y : Text} {o : TextOp} (h : readRL mk x y = .op o) :
    ∃ ra, o = mk ra y := by
  unfold readRL at h
  split at h
  · cases h
  · cases h
    exact ⟨_, rfl⟩

/-- The operands that are read from names are legal: the literal was checked, and the target is a name
(R59, R60). -/
theorem readOperands_wf {m : Mnemonic} {args : List Text} {o : TextOp}
    (hargs : ∀ x ∈ args, isName x = true) (h : readOperands m args = .op o) : o.wf = true := by
  unfold readOperands at h
  split at h
  case h_5 => -- `mov`
    obtain ⟨ra, n, hn, rfl⟩ := readRI_op h
    exact (readLiteral_eq_some_iff.mp hn).2
  case h_6 => -- `out`
    obtain ⟨ra, rfl⟩ := readR_op h
    rfl
  case h_7 x y => -- `jnz`
    obtain ⟨ra, rfl⟩ := readRL_op h
    exact hargs y (by simp)
  case h_8 => cases h
  all_goals -- `add`, `sub`, `mul`, `div`
    obtain ⟨ra, rb, rfl⟩ := readRR_op h
    rfl

theorem readOp_wf {tok : Text} {args : List Text} {o : TextOp}
    (hargs : ∀ x ∈ args, isName x = true) (h : readOp tok args = .op o) : o.wf = true := by
  unfold readOp at h
  split at h
  · cases h
  · exact readOperands_wf hargs h

theorem readAfterLabel_parts {label : Option Text} {toks : List Text} {p : LineParts}
    (htoks : ∀ x ∈ toks, isName x = true) (h : readAfterLabel label toks = .parts p) :
    p.label = label ∧ p.op.wf = true := by
  cases toks with
  | nil => cases h
  | cons tok args =>
    rw [readAfterLabel] at h
    cases hop : readOp tok args with
    | error e => simp only [hop] at h; cases h
    | op o =>
      simp only [hop] at h
      cases h
      exact ⟨rfl, readOp_wf (fun x hx => htoks x (List.mem_cons_of_mem tok hx)) hop⟩

theorem isName_of_attachedLabel {tok name : Text} (htok : isName tok = true)
    (h : attachedLabel tok = some name) (hne : name ≠ []) : isName name = true := by
  obtain ⟨-, hsp⟩ := isName_iff.mp htok
  unfold attachedLabel at h
  split_ifs at h
  cases h
  exact isName_iff.mpr ⟨hne, fun c hc => hsp c (List.dropLast_subset tok hc)⟩

/-- A line that passes its checks has legal operands, and its label, if any, is a name (R60, R64). -/
theorem readLine_parts {toks : List Text} {p : LineParts} (htoks : ∀ x ∈ toks, isName x = true)
    (h : readLine toks = .parts p) :
    p.op.wf = true ∧ ∀ name, p.label = some name → isName name = true := by
  unfold readLine at h
  split_ifs at h
  cases toks with
  | nil => cases h
  | cons tok rest =>
    cases hlabel : attachedLabel tok with
    | none =>
      simp only [hlabel] at h
      obtain ⟨hlab, hop⟩ := readAfterLabel_parts htoks h
      exact ⟨hop, fun name hname => by cases hlab.symm.trans hname⟩
    | some label =>
      simp only [hlabel] at h
      split_ifs at h with hne
      obtain ⟨hlab, hop⟩ := readAfterLabel_parts (fun x hx => htoks x (List.mem_cons_of_mem tok hx)) h
      refine ⟨hop, fun name hname => ?_⟩
      cases hlab.symm.trans hname
      exact isName_of_attachedLabel (htoks tok List.mem_cons_self) hlabel hne

/-- Every instruction has legal operands, and its label, if any, is a name (R59, R60). -/
def Translation.OperandsLegal (t : Translation) : Prop :=
  ∀ i ∈ t.program, i.op.wf = true ∧ ∀ name, i.label = some name → isName name = true

theorem append_operandsLegal {ln : Text} {t t' : Translation} {p : LineParts} (h : t.OperandsLegal)
    (hread : readLine (tokens ln) = .parts p) (happ : t.append p = some t') : t'.OperandsLegal := by
  obtain ⟨hprog, -⟩ := append_eq_some happ
  intro i hi
  rw [hprog] at hi
  rcases List.mem_append.mp hi with hi | hi
  · exact h i hi
  · cases List.mem_singleton.mp hi
    exact readLine_parts (fun x hx => isName_of_mem_tokens hx) hread

/-- Settles O54: each line's tokens are names, and its checks leave only legal operands. -/
theorem translatedOperandsInRange : Obligations.TranslatedOperandsInRange := fun _ _ h =>
  translate_invariant (P := Translation.OperandsLegal) nofun
    (fun _ _ _ _ hread happ hP => append_operandsLegal hP hread happ) h

/-! ### Label ids -/

theorem mem_addNames {seen ns : List Text} {name : Text} :
    name ∈ addNames seen ns ↔ name ∈ seen ∨ name ∈ ns := by
  induction ns generalizing seen with
  | nil => simp [addNames]
  | cons n ns ih =>
    rw [addNames, ih]
    split_ifs with hn
    · have hseen : name = n → name ∈ seen := fun h => h ▸ hn
      rw [List.mem_cons, ← or_assoc, or_iff_left_of_imp hseen]
    · simp [or_assoc]

theorem addNames_nodup {seen : List Text} (h : seen.Nodup) (ns : List Text) :
    (addNames seen ns).Nodup := by
  induction ns generalizing seen with
  | nil => exact h
  | cons n ns ih =>
    rw [addNames]
    split_ifs with hn
    · exact ih h
    · exact ih (List.concat_eq_append ▸ h.concat hn)

theorem mem_labelNames {p : List TextInstr} {name : Text} :
    name ∈ labelNames p ↔ ∃ i ∈ p, name ∈ namesOf i := by
  simp [labelNames, mem_addNames]

theorem labelNames_nodup (p : List TextInstr) : (labelNames p).Nodup :=
  addNames_nodup List.nodup_nil _

theorem labelId_toNat {names : List Text} (hlen : names.length ≤ 2 ^ 32) {name : Text}
    (h : name ∈ names) : (labelId names name).toNat = names.idxOf name := by
  rw [labelId, BitVec.toNat_ofNat]
  exact Nat.mod_eq_of_lt ((List.idxOf_lt_length_of_mem h).trans_le hlen)

/-- Settles O56: ids are the names' places, and the 32 bits of an id hold every place. -/
theorem labelIdsDistinct : Obligations.LabelIdsDistinct := by
  refine fun p => ⟨labelNames_nodup p, fun _ => mem_labelNames, fun hlen x hx y hy h => ?_⟩
  have hidx := congrArg BitVec.toNat h
  rw [labelId_toNat hlen hx, labelId_toNat hlen hy] at hidx
  exact (List.idxOf_inj hx).mp hidx

/-! ### Images -/

/-- The image of a translated program (R74). -/
def imageOf (t : Translation) : Image :=
  ⟨t.program.map fun i => encode (assemble (labelNames t.program) i),
    (labelNames t.program).map (imageEntry t.labels)⟩

theorem buildImage_ok {p : Params} {t : Translation} (hlen : t.program.length ≤ p.progMax)
    (hnames : (labelNames t.program).length ≤ p.labelSlots) : buildImage p t = .ok (imageOf t) :=
  (if_neg (Nat.not_lt.mpr hlen)).trans (if_neg (Nat.not_lt.mpr hnames))

theorem eq_imageOf_of_buildImage {p : Params} {t : Translation} {img : Image}
    (h : buildImage p t = .ok img) : img = imageOf t ∧ t.program.length ≤ p.progMax ∧
      (labelNames t.program).length ≤ p.labelSlots := by
  simp only [buildImage] at h
  split_ifs at h with hlen hnames
  cases h
  exact ⟨rfl, Nat.not_lt.mp hlen, Nat.not_lt.mp hnames⟩

theorem imageOf_words {t : Translation} {a : Nat} {i : TextInstr} (h : t.program[a]? = some i) :
    (imageOf t).words[a]? = some (encode (assemble (labelNames t.program) i)) := by
  simp [imageOf, h]

theorem entryOf_imageOf {t : Translation} {id : Nat} {name : Text}
    (h : (labelNames t.program)[id]? = some name) :
    entryOf (imageOf t) id = imageEntry t.labels name := by
  simp [entryOf, imageOf, h]

theorem entryOf_imageOf_beyond {t : Translation} {id : Nat}
    (h : (labelNames t.program).length ≤ id) : entryOf (imageOf t) id = ⟨false, 0#32⟩ := by
  simp [entryOf, imageOf, List.getElem?_eq_none h]

theorem imageEntry_of_bound {labels : LabelTable} {name : Text} {a : Nat}
    (h : labels.getAddress name = some a) : imageEntry labels name = ⟨true, BitVec.ofNat 32 a⟩ := by
  simp only [imageEntry, h]

theorem imageEntry_of_unbound {labels : LabelTable} {name : Text}
    (h : labels.getAddress name = none) : imageEntry labels name = ⟨false, 0#32⟩ := by
  simp only [imageEntry, h]

/-- Settles O57: the length is tested first, then the names; the image is then `imageOf`. -/
theorem imageBuilding : Obligations.ImageBuilding := by
  refine fun p t => ⟨fun hlen => if_pos hlen, fun hlen hnames => ?_, fun hlen hnames => ?_⟩
  · exact (if_neg (Nat.not_lt.mpr hlen)).trans (if_pos hnames)
  · refine ⟨imageOf t, buildImage_ok hlen hnames, List.length_map .., fun a i => imageOf_words,
      fun id name hid => ⟨fun a ha => ?_, fun hnone => ?_⟩, fun id => entryOf_imageOf_beyond⟩
    · rw [entryOf_imageOf hid, imageEntry_of_bound ha]
      exact ⟨rfl, fun hlt => (BitVec.toNat_ofNat a 32).trans (Nat.mod_eq_of_lt hlt)⟩
    · rw [entryOf_imageOf hid, imageEntry_of_unbound hnone]

end Sys2Proof.Machine
end

section
/-! The core and the textual level (30_encoding.md R48, 70_reset_and_hazards.md R116): a core that holds a
translated program makes the textual level's steps, and a boot gives such a core. -/

namespace Sys2Proof.Machine

/-! ### What a core that holds a program finds -/

variable {t : Translation} {s : State}

theorem State.Holds.of_sameImage {s' : State} (h : s.Holds t) (him : SameImage s s') : s'.Holds t where
  length := him.progLen_eq ▸ h.length
  entries a i hi := (him.instrAt_eq _).trans (h.entries a i hi)
  names name hname := (him.labelLookup_eq _).trans (h.names name hname)
  bound := h.bound

theorem State.Holds.length_lt (h : s.Holds t) : t.program.length < 2 ^ 32 := h.length ▸ s.progLen.isLt

/-- The instruction at an address of the program is the translated one's (R73). -/
theorem State.Holds.instrAt_of_lt (h : s.Holds t) {a : Addr} (ha : a < s.progLen) :
    ∃ i, t.program[a.toNat]? = some i ∧ s.instrAt a = .instr (assemble (labelNames t.program) i) := by
  have hlt : a.toNat < t.program.length := h.length ▸ BitVec.lt_def.mp ha
  have hi := h.entries a.toNat _ (List.getElem?_eq_getElem hlt)
  rw [BitVec.ofNat_toNat, BitVec.setWidth_eq] at hi
  exact ⟨_, List.getElem?_eq_getElem hlt, hi⟩

/-- A name the table binds leads to an instruction of the program, on both levels (R74, R97). -/
theorem State.Holds.target (h : s.Holds t) {name : Text} {d : Nat}
    (hd : t.labels.getAddress name = some d) :
    BitVec.ofNat 32 d < s.progLen ∧ ∃ j ∈ t.program, t.program[d]? = some j ∧
      s.instrAt (BitVec.ofNat 32 d) = .instr (assemble (labelNames t.program) j) := by
  have hlt := h.bound name d hd
  have hget := List.getElem?_eq_getElem hlt
  refine ⟨?_, _, List.getElem_mem hlt, hget, h.entries d _ hget⟩
  rw [BitVec.lt_def, BitVec.toNat_ofNat, Nat.mod_eq_of_lt (hlt.trans h.length_lt), h.length]
  exact hlt

/-! ### The simulation -/

theorem labelled_assemble (names : List Text) (i : TextInstr) :
    labelled (assemble names i) = i.label.isSome := by
  obtain ⟨label, op⟩ := i
  cases op <;> rfl

/-- A `jnz` decides alike on both levels, and enters the same target, if nested executions agree. -/
theorem execAt_jnz_of_holds (h : s.Holds t) {label : Option Text} {ra : Reg} {target : Text}
    (htarget : target ∈ labelNames t.program) {n : Nat} (l : Bool) (a : Addr)
    (hnested : ∀ m j d, n = m + 1 → j ∈ t.program →
      execAt m (assemble (labelNames t.program) j) d s.countHop = textExecAt t m j d s.countHop) :
    execAt n (.jnz l ra (labelId (labelNames t.program) target)) a s =
      textExecAt t n ⟨label, .jnz ra target⟩ a s := by
  have hlookup := h.names target htarget
  rw [textExecAt.eq_def]
  by_cases hr : s.getReg ra = 0#32
  · rw [execAt_jnz_of_notTaken n l _ a hr]
    simp [jumpTaken_iff, hr]
  · have htaken : jumpTaken (s.getReg ra) = true := (jumpTaken_iff _).mpr hr
    cases hd : t.labels.getAddress target with
    | none =>
      rw [hd] at hlookup
      rw [execAt_jnz_of_raises n l (jnzHop_of_unbound hr hlookup)]
      simp only [htaken, hd, if_true]
    | some d =>
      obtain ⟨hlt, j, hmem, hj, hi⟩ := h.target hd
      rw [hd] at hlookup
      by_cases hhops : s.progLen.toNat ≤ s.hops
      · rw [execAt_jnz_of_raises n l (jnzHop_of_hops hr hlookup hlt hhops)]
        have hfull : t.program.length < s.countHop.hops := h.length ▸ Nat.lt_succ_of_le hhops
        simp only [htaken, hd, hj, hfull, if_true]
      · have hroom : ¬t.program.length < s.countHop.hops :=
          h.length ▸ Nat.not_lt.mpr (Nat.not_le.mp hhops)
        have hhop := jnzHop_enters (a := a) |>.mpr ⟨hr, hlookup, hlt, Nat.not_le.mp hhops, hi, rfl⟩
        cases n with
        | zero =>
          rw [execAt.eq_def]
          simp only [hhop, htaken, hd, hj, hroom, if_true, if_false]
        | succ m =>
          rw [execAt_jnz_of_enters m l hhop, hnested m j _ rfl hmem]
          simp only [htaken, hd, hj, hroom, if_true, if_false]

theorem target_mem_labelNames {label : Option Text} {ra : Reg} {target : Text}
    (hi : ⟨label, .jnz ra target⟩ ∈ t.program) : target ∈ labelNames t.program :=
  mem_labelNames.mpr ⟨_, hi, by simp [namesOf]⟩

/-- Every instruction of the program executes alike on both levels, if nested executions agree. -/
theorem execAt_of_holds_of_nested (h : s.Holds t) {i : TextInstr} (hi : i ∈ t.program) {n : Nat}
    (a : Addr) (hnested : ∀ m j d, n = m + 1 → j ∈ t.program →
      execAt m (assemble (labelNames t.program) j) d s.countHop = textExecAt t m j d s.countHop) :
    execAt n (assemble (labelNames t.program) i) a s = textExecAt t n i a s := by
  obtain ⟨label, op⟩ := i
  cases op with
  | jnz ra target => exact execAt_jnz_of_holds h (target_mem_labelNames hi) label.isSome a hnested
  | _ =>
    rw [execAt.eq_def, textExecAt.eq_def]
    rfl

/-- By induction on the room for nested executions (R95). -/
theorem execAt_of_holds (h : s.Holds t) {i : TextInstr} (hi : i ∈ t.program) (n : Nat) (a : Addr) :
    execAt n (assemble (labelNames t.program) i) a s = textExecAt t n i a s := by
  induction n generalizing i a s with
  | zero => exact execAt_of_holds_of_nested h hi a nofun
  | succ n ih =>
    refine execAt_of_holds_of_nested h hi a fun m j d hm hj => ?_
    cases hm
    have hcounted : s.countHop.Holds t := h.of_sameImage (.refl s)
    exact ih hcounted hj d

theorem settle_eq_next (e : Effect) : settle e = .next (afterEffect e) := by
  cases e <;> rfl

theorem textStep_of_none (hrun : s.runState = .run) (h : t.program[s.pc.toNat]? = none) :
    textStep t s = s.endRun := by
  rw [textStep, if_pos hrun]
  simp only [h]

theorem textStep_of_some {i : TextInstr} (hrun : s.runState = .run)
    (h : t.program[s.pc.toNat]? = some i) :
    textStep t s = if i.label.isSome then s.advance
      else (afterEffect (textExecAt t t.program.length i s.pc s.clearHops)).retire := by
  rw [textStep, if_pos hrun]
  simp only [h]

/-- Below `PROG_LEN` both levels skip or execute the instruction of one address. -/
theorem step_of_holds_of_lt (h : s.Holds t) (hrun : s.runState = .run) (hpc : s.pc < s.progLen) :
    step s = .next (textStep t s) := by
  obtain ⟨i, hi, hinstr⟩ := h.instrAt_of_lt hpc
  have hlabel := labelled_assemble (labelNames t.program) i
  rw [textStep_of_some hrun hi]
  split_ifs with hlab
  · exact stepSkipsLabelled s _ hrun hpc hinstr (hlabel.trans hlab)
  · have hunlab := hlabel.trans (Bool.eq_false_iff.mpr hlab)
    obtain ⟨u, hu, hstep⟩ := step_of_instr hrun hpc hinstr hunlab
    have hcleared : s.clearHops.Holds t := h.of_sameImage (.refl s)
    have hexec := execAt_of_holds hcleared (List.mem_of_getElem? hi) s.progLen.toNat s.pc
    rw [exec_eq_settle, settle_eq_next] at hu
    cases hu
    rw [hstep, ← h.length, ← hexec]
    rfl

theorem step_of_holds (h : s.Holds t) : step s = .next (textStep t s) := by
  by_cases hrun : s.runState = .run
  · by_cases hpc : s.pc < s.progLen
    · exact step_of_holds_of_lt h hrun hpc
    · have hle := BitVec.not_lt.mp hpc
      have hnone : t.program[s.pc.toNat]? = none :=
        List.getElem?_eq_none (h.length ▸ BitVec.le_def.mp hle)
      rw [textStep_of_none hrun hnone, step_of_progLen_le hrun hle]
  · rw [stoppedCoreStays s hrun, textStep, if_neg hrun]

/-- Settles O59: the step of a core that holds the program is the textual one, and keeps the image. -/
theorem binaryLevelRefinesTextual : Obligations.BinaryLevelRefinesTextual := fun _ s h =>
  ⟨step_of_holds h, h.of_sameImage (stepKeepsProgram s _ (step_of_holds h))⟩

/-! ### Loading an image -/

theorem hostMoves_cons {m : HostMove} {s' : State} {reply : Option Word}
    (h : hostMove m s = .done s' reply) (ms : List HostMove) :
    hostMoves (m :: ms) s = hostMoves ms s' := by
  simp only [hostMoves, h]

theorem hostMoves_append {ms : List HostMove} {s' : State} (h : hostMoves ms s = some s')
    (rest : List HostMove) : hostMoves (ms ++ rest) s = hostMoves rest s' := by
  induction ms generalizing s with
  | nil => cases h; rfl
  | cons m ms ih =>
    cases hm : hostMove m s with
    | refused r => simp only [hostMoves, hm] at h; cases h
    | done u reply =>
      rw [hostMoves_cons hm] at h
      rw [List.cons_append, hostMoves_cons hm]
      exact ih h

/-- The loads of words fill the program store from `a` on and change nothing else (R108). -/
theorem hostMoves_wordMoves (hstop : s.runState ≠ .run) (ws : List IWord) {a : Nat}
    (hfit : a + ws.length ≤ s.params.progMax) :
    ∃ prog : Memory IWord, hostMoves (wordMoves a ws) s = some { s with prog := prog } ∧
      (∀ k w, ws[k]? = some w → prog.find (a + k) = some w) ∧
      ∀ b, b < a → prog.find b = s.prog.find b := by
  induction ws generalizing s a with
  | nil => exact ⟨s.prog, rfl, nofun, fun _ _ => rfl⟩
  | cons w ws ih =>
    rw [List.length_cons] at hfit
    have hload := hostMove_loadWord (a := a) w hstop (by omega)
    obtain ⟨prog, hmoves, hwords, hbelow⟩ :=
      ih (s := s.putWord a w) hstop (a := a + 1) (by rw [State.putWord_params]; omega)
    refine ⟨prog, (hostMoves_cons hload _).trans hmoves, fun k v hk => ?_, fun b hb => ?_⟩
    · cases k with
      | zero =>
        cases hk
        exact (hbelow a a.lt_succ_self).trans (s.prog.find_put_same a w)
      | succ k =>
        have hplace : a + (k + 1) = a + 1 + k := by omega
        rw [hplace]
        exact hwords k v hk
    · exact (hbelow b (by omega)).trans (s.prog.find_put_ne w hb.ne)

/-- The loads of entries set the bindings of their ids and change nothing else (R108). -/
theorem hostMoves_loadLabels (hstop : s.runState ≠ .run) (hwf : s.labels.wf) (f : Nat → LabelEntry)
    {ids : List Nat} (hids : ∀ id ∈ ids, id < s.params.labelSlots) :
    ∃ labels : Memory Addr,
      hostMoves (ids.map fun id => .loadLabel id (f id)) s = some { s with labels := labels } ∧
      ∀ id, labels.find id = if id ∈ ids then entryBinding (f id) else s.labels.find id := by
  induction ids generalizing s with
  | nil => exact ⟨s.labels, rfl, fun _ => rfl⟩
  | cons id ids ih =>
    obtain ⟨hid, hids⟩ := List.forall_mem_cons.mp hids
    have hload := hostMove_loadLabel (f id) hstop hid
    obtain ⟨labels, hmoves, hfind⟩ :=
      ih (s := s.putLabel id (f id)) hstop (State.putLabel_wf hwf id (f id)) hids
    refine ⟨labels, (hostMoves_cons hload _).trans hmoves, fun id' => ?_⟩
    rw [hfind id']
    by_cases hmem : id' ∈ ids
    · rw [if_pos hmem, if_pos (List.mem_cons_of_mem id hmem)]
    · rw [if_neg hmem]
      by_cases heq : id' = id
      · rw [heq, if_pos List.mem_cons_self, State.find_putLabel_same hwf]
      · rw [if_neg (by simp [heq, hmem]), State.find_putLabel_ne s _ heq]

/-! ### Booting an image -/

theorem entryBinding_of_beyond {img : Image} {id : Nat} (h : img.labels.length ≤ id) :
    entryBinding (entryOf img id) = none := by
  simp [entryBinding, entryOf, List.getElem?_eq_none h]

theorem hostMove_start (hstop : s.runState ≠ .run) :
    hostMove (.write 0x00 1#32) s = .done s.startRun none := by
  rw [hostMove_write_ctrl, State.writeCtrl_starts hstop (by decide)]

/-- The write of a length that fits, then the start of the run (R108, R113). -/
theorem hostMoves_length_start (hstop : s.runState ≠ .run) {n : Word}
    (hn : n.toNat ≤ s.params.progMax) :
    hostMoves [.write 0x08 n, .write 0x00 1#32] s = some (State.startRun { s with progLen := n }) := by
  have hlen : hostMove (.write 0x08 n) s = .done { s with progLen := n } none := by
    rw [hostMove_write_progLen n hstop, State.writeLen, if_pos hn]
  rw [hostMoves_cons hlen, hostMoves_cons (hostMove_start (by exact hstop)), hostMoves]

/-- A boot of an image that fits leaves a started core with the image's words and bindings (R116). -/
theorem bootImage_spec {img : Image} (hrange : s.InRange) (hstop : s.runState ≠ .run)
    (hwords : img.words.length ≤ s.params.progMax) (hlabels : img.labels.length ≤ s.params.labelSlots) :
    ∃ s', bootImage img s = some s' ∧ s'.runState = .run ∧ s'.pc = 0#32 ∧ s'.regs = RegFile.zero ∧
      s'.progLen.toNat = img.words.length ∧ (∀ k w, img.words[k]? = some w → s'.wordAt k = w) ∧
      ∀ id, s'.labelLookup id = entryBinding (entryOf img id.toNat) := by
  obtain ⟨prog, hloads, hword, -⟩ :=
    hostMoves_wordMoves hstop img.words (a := 0) (by rwa [Nat.zero_add])
  obtain ⟨labels, hbinds, hfind⟩ :=
    hostMoves_loadLabels (s := { s with prog := prog }) hstop hrange.labels (entryOf img)
      (ids := List.range s.params.labelSlots) fun id hid => List.mem_range.mp hid
  obtain ⟨-, hmax, -⟩ := params_wf_iff.mp hrange.params
  have hlen : (BitVec.ofNat 32 img.words.length).toNat = img.words.length := by
    rw [BitVec.toNat_ofNat]
    exact Nat.mod_eq_of_lt (by omega)
  have hstart := hostMoves_length_start (s := { s with prog := prog, labels := labels }) hstop
    (hlen.trans_le hwords)
  refine ⟨State.startRun
      { s with prog := prog, labels := labels, progLen := BitVec.ofNat 32 img.words.length },
    ?_, rfl, rfl, rfl, hlen, fun k w hk => ?_, fun id => ?_⟩
  · rw [bootImage, loadMoves, List.append_assoc, List.append_assoc, hostMoves_append hloads,
      hostMoves_append hbinds]
    exact hstart
  · have hk := hword k w hk
    rw [Nat.zero_add] at hk
    exact State.wordAt_of_find hk
  · rcases Nat.lt_or_ge id.toNat s.params.labelSlots with hid | hid
    · have hfound := hfind id.toNat
      rw [if_pos (List.mem_range.mpr hid)] at hfound
      exact (State.labelLookup_eq_find (by exact hid)).trans hfound
    · rw [entryBinding_of_beyond (hlabels.trans hid)]
      exact State.labelLookup_beyond (by exact hid)

theorem entryBinding_imageEntry (labels : LabelTable) (name : Text) :
    entryBinding (imageEntry labels name) = (labels.getAddress name).map (BitVec.ofNat 32) := by
  cases h : labels.getAddress name with
  | none => rw [imageEntry_of_unbound h]; rfl
  | some a => rw [imageEntry_of_bound h]; rfl

/-- A core with the words and bindings of a translated program's image holds the program. -/
theorem holds_of_imageOf (hlabels : t.LabelsBound) (hnames : (labelNames t.program).length ≤ 2 ^ 32)
    (hlen : s.progLen.toNat = t.program.length)
    (hwords : ∀ k w, (imageOf t).words[k]? = some w → s.wordAt k = w)
    (hlookup : ∀ id, s.labelLookup id = entryBinding (entryOf (imageOf t) id.toNat)) : s.Holds t where
  length := hlen
  entries a i hi := by
    have ha : a < 2 ^ 32 :=
      (List.getElem?_eq_some_iff.mp hi).1.trans_le (hlen ▸ s.progLen.isLt.le)
    rw [State.instrAt, BitVec.toNat_ofNat, Nat.mod_eq_of_lt ha, hwords a _ (imageOf_words hi),
      decodeEncode]
  names name hname := by
    have hid : (labelNames t.program)[(labelNames t.program).idxOf name]? = some name :=
      List.getElem?_idxOf hname
    rw [hlookup, labelId_toNat hnames hname, entryOf_imageOf hid, entryBinding_imageEntry]
  bound name a ha := by
    obtain ⟨i, hi, -⟩ := (hlabels name a).mp ha
    exact (List.getElem?_eq_some_iff.mp hi).1

/-- Its words are legal, and an id is bound only as the id of a name the program binds (R97). -/
theorem State.Holds.assembled (h : s.Holds t)
    (hlookup : ∀ id, s.labelLookup id = entryBinding (entryOf (imageOf t) id.toNat)) : s.Assembled where
  legal a ha := by
    obtain ⟨i, -, hi⟩ := h.instrAt_of_lt ha
    exact ⟨_, hi⟩
  bound id d hd := by
    rw [hlookup] at hd
    rcases Nat.lt_or_ge id.toNat (labelNames t.program).length with hid | hid
    · rw [entryOf_imageOf (List.getElem?_eq_getElem hid), entryBinding_imageEntry] at hd
      obtain ⟨a, ha, rfl⟩ := Option.map_eq_some_iff.mp hd
      exact (h.target ha).1
    · rw [entryOf_imageOf_beyond hid] at hd
      cases hd

/-- Settles O58: the boot leaves the image's words and bindings in a started core, and with them the
program the translator gave. -/
theorem bootGivesAssembledProgram : Obligations.BootGivesAssembledProgram := by
  intro text t img s hrange hstop htrans hbuild
  obtain ⟨rfl, hlen, hslots⟩ := eq_imageOf_of_buildImage hbuild
  have hwords : (imageOf t).words.length = t.program.length := List.length_map ..
  have hentries : (imageOf t).labels.length = (labelNames t.program).length := List.length_map ..
  obtain ⟨-, -, hmax⟩ := params_wf_iff.mp hrange.params
  obtain ⟨s', hboot, hrun, hpc, hregs, hprogLen, hword, hlookup⟩ :=
    bootImage_spec hrange hstop (hwords.trans_le hlen) (hentries.trans_le hslots)
  have hholds := holds_of_imageOf (translate_labelsBound htrans) (hslots.trans hmax)
    (hprogLen.trans hwords) hword hlookup
  exact ⟨s', hboot, hrun, hpc, State.getReg_of_regs_zero hregs, hholds.assembled hlookup, hholds⟩

end Sys2Proof.Machine
end
